-- ==== Sys2Proof/Word.lean ====
section
/-! DEFINITION. The word types of the CHIP-8 core (spec 00_scope.md R5, R11, R12).
Every value is an unsigned number of a fixed width; bit 0 is the least significant bit. -/

namespace Sys2Proof

/-- An 8-bit value: a general register, a timer, a memory byte (R5 `XLEN`, `TW`). -/
abbrev Byte := BitVec 8

/-- A 16-bit value: an opcode, `I`, `PC`, a stack slot, the key sample (R5 `RW`, R70). -/
abbrev Word := BitVec 16

/-- The number of a general register, 0 to 15; `V[15]` is `VF` (R20). -/
abbrev Reg := Fin 16

/-- `VF`, the register that doubles as the flag register (R21). -/
abbrev VF : Reg := 15

/-- The two bytes of an opcode put together, high byte first (R54, R55). -/
abbrev wordOfBytes (hi lo : Byte) : Word := hi ++ lo

end Sys2Proof
end

