-- ==== Sys2Proof/Syntax.lean ====
section
/-! DEFINITION. The instructions: one constructor per row of the opcode map (spec 30_encoding.md
R74), in the map's order. `x`, `y` are register numbers, `n` a 4-bit, `nn` an 8-bit, `nnn` a 12-bit
immediate (R72). -/

namespace Sys2Proof

/-- The 34 instructions of R74 and its row 35, the invalid `0NNN`. -/
inductive Instr where
  /-- Row 1, 00E0 `CLS`. -/
  | cls
  /-- Row 2, 00EE `RET`. -/
  | ret
  /-- Row 3, 1NNN `JP NNN`. -/
  | jp (nnn : BitVec 12)
  /-- Row 4, 2NNN `CALL NNN`. -/
  | call (nnn : BitVec 12)
  /-- Row 5, 3XNN `SE VX, NN`. -/
  | seImm (x : Reg) (nn : Byte)
  /-- Row 6, 4XNN `SNE VX, NN`. -/
  | sneImm (x : Reg) (nn : Byte)
  /-- Row 7, 5XY0 `SE VX, VY`. -/
  | seReg (x y : Reg)
  /-- Row 8, 6XNN `LD VX, NN`. -/
  | ldImm (x : Reg) (nn : Byte)
  /-- Row 9, 7XNN `ADD VX, NN`. -/
  | addImm (x : Reg) (nn : Byte)
  /-- Row 10, 8XY0 `LD VX, VY`. -/
  | ldReg (x y : Reg)
  /-- Row 11, 8XY1 `OR VX, VY`. -/
  | orReg (x y : Reg)
  /-- Row 12, 8XY2 `AND VX, VY`. -/
  | andReg (x y : Reg)
  /-- Row 13, 8XY3 `XOR VX, VY`. -/
  | xorReg (x y : Reg)
  /-- Row 14, 8XY4 `ADD VX, VY`. -/
  | addReg (x y : Reg)
  /-- Row 15, 8XY5 `SUB VX, VY`. -/
  | subReg (x y : Reg)
  /-- Row 16, 8XY6 `SHR VX`; the `Y` field is kept though its value means nothing (R77). -/
  | shr (x y : Reg)
  /-- Row 17, 8XY7 `SUBN VX, VY`. -/
  | subnReg (x y : Reg)
  /-- Row 18, 8XYE `SHL VX`; the `Y` field is kept though its value means nothing (R77). -/
  | shl (x y : Reg)
  /-- Row 19, 9XY0 `SNE VX, VY`. -/
  | sneReg (x y : Reg)
  /-- Row 20, ANNN `LD I, NNN`. -/
  | ldI (nnn : BitVec 12)
  /-- Row 21, BNNN `JP V0, NNN`. -/
  | jpV0 (nnn : BitVec 12)
  /-- Row 22, CXNN `RND VX, NN`. -/
  | rnd (x : Reg) (nn : Byte)
  /-- Row 23, DXYN `DRW VX, VY, N`. -/
  | drw (x y : Reg) (n : BitVec 4)
  /-- Row 24, EX9E `SKP VX`. -/
  | skp (x : Reg)
  /-- Row 25, EXA1 `SKNP VX`. -/
  | sknp (x : Reg)
  /-- Row 26, FX07 `LD VX, DT`. -/
  | ldVxDt (x : Reg)
  /-- Row 27, FX15 `LD DT, VX`. -/
  | ldDtVx (x : Reg)
  /-- Row 28, FX18 `LD ST, VX`. -/
  | ldStVx (x : Reg)
  /-- Row 29, FX1E `ADD I, VX`. -/
  | addI (x : Reg)
  /-- Row 30, FX0A `LD VX, K`. -/
  | ldKey (x : Reg)
  /-- Row 31, FX29 `LD F, VX`. -/
  | ldF (x : Reg)
  /-- Row 32, FX33 `LD B, VX`. -/
  | ldB (x : Reg)
  /-- Row 33, FX55 `LD [I], VX`. -/
  | storeRegs (x : Reg)
  /-- Row 34, FX65 `LD VX, [I]`. -/
  | loadRegs (x : Reg)
  /-- Row 35, 0NNN other than 00E0 and 00EE: `SYS NNN`, which this hardware does not have. -/
  | sys (nnn : BitVec 12)
  deriving DecidableEq, Repr

end Sys2Proof
end

