-- ==== Sys2Proof/Decode.lean ====
section
/-! DEFINITION. From opcodes to instructions and back (spec 30_encoding.md). The decoder follows
the two-level dispatch of R75, the encoder the formats of R71, and the opcode map is R74's table of
masks and matches. -/

namespace Sys2Proof

/-! ## Fields (R72) -/

/-- `op[15:12]`, the nibble of the first-level dispatch (R75). -/
def opNibble (w : Word) : BitVec 4 := w.extractLsb' 12 4

/-- `X = op[11:8]`, the number of a general register (R72). -/
def fieldX (w : Word) : Reg := Fin.ofNat 16 (w.extractLsb' 8 4).toNat

/-- `Y = op[7:4]`, the number of a general register (R72). -/
def fieldY (w : Word) : Reg := Fin.ofNat 16 (w.extractLsb' 4 4).toNat

/-- `N = op[3:0]` (R72). -/
def fieldN (w : Word) : BitVec 4 := w.extractLsb' 0 4

/-- `NN = op[7:0]` (R72). -/
def fieldNN (w : Word) : Byte := w.extractLsb' 0 8

/-- `NNN = op[11:0]` (R72). -/
def fieldNNN (w : Word) : BitVec 12 := w.extractLsb' 0 12

/-- The four bits of a register number (R71). -/
def regBits (x : Reg) : BitVec 4 := BitVec.ofNat 4 x.val

/-! ## Decoding (R75 to R78) -/

/-- Why the decoder answers no instruction. -/
inductive Reject where
  /-- Fewer than the two bytes of an opcode are there (R70). -/
  | truncated
  /-- The opcode selects no row of the opcode map (R78). -/
  | invalidOpcode
  deriving DecidableEq, Repr

/-- Second level of nibble 0: the whole remaining 12 bits (R75; row 35 is R74's `0NNN`). -/
def decode0 (w : Word) : Except Reject Instr :=
  match fieldNNN w with
  | 0x0E0#12 => .ok .cls
  | 0x0EE#12 => .ok .ret
  | nnn => .ok (.sys nnn)

/-- Second level of nibble 8: `op[3:0]` (R75). -/
def decode8 (w : Word) : Except Reject Instr :=
  match fieldN w with
  | 0x0#4 => .ok (.ldReg (fieldX w) (fieldY w))
  | 0x1#4 => .ok (.orReg (fieldX w) (fieldY w))
  | 0x2#4 => .ok (.andReg (fieldX w) (fieldY w))
  | 0x3#4 => .ok (.xorReg (fieldX w) (fieldY w))
  | 0x4#4 => .ok (.addReg (fieldX w) (fieldY w))
  | 0x5#4 => .ok (.subReg (fieldX w) (fieldY w))
  | 0x6#4 => .ok (.shr (fieldX w) (fieldY w))
  | 0x7#4 => .ok (.subnReg (fieldX w) (fieldY w))
  | 0xE#4 => .ok (.shl (fieldX w) (fieldY w))
  | _ => .error .invalidOpcode

/-- Second level of nibble E: `op[7:0]` (R75). -/
def decodeE (w : Word) : Except Reject Instr :=
  match fieldNN w with
  | 0x9E#8 => .ok (.skp (fieldX w))
  | 0xA1#8 => .ok (.sknp (fieldX w))
  | _ => .error .invalidOpcode

/-- Second level of nibble F: `op[7:0]` (R75). -/
def decodeF (w : Word) : Except Reject Instr :=
  match fieldNN w with
  | 0x07#8 => .ok (.ldVxDt (fieldX w))
  | 0x0A#8 => .ok (.ldKey (fieldX w))
  | 0x15#8 => .ok (.ldDtVx (fieldX w))
  | 0x18#8 => .ok (.ldStVx (fieldX w))
  | 0x1E#8 => .ok (.addI (fieldX w))
  | 0x29#8 => .ok (.ldF (fieldX w))
  | 0x33#8 => .ok (.ldB (fieldX w))
  | 0x55#8 => .ok (.storeRegs (fieldX w))
  | 0x65#8 => .ok (.loadRegs (fieldX w))
  | _ => .error .invalidOpcode

/-- The decoding procedure on one opcode: first level `op[15:12]`, second level where R75 has one.
Nibbles 5 and 9 ask for `op[3:0] = 0` (R76). -/
def decode (w : Word) : Except Reject Instr :=
  match opNibble w with
  | 0x0#4 => decode0 w
  | 0x1#4 => .ok (.jp (fieldNNN w))
  | 0x2#4 => .ok (.call (fieldNNN w))
  | 0x3#4 => .ok (.seImm (fieldX w) (fieldNN w))
  | 0x4#4 => .ok (.sneImm (fieldX w) (fieldNN w))
  | 0x5#4 => if fieldN w = 0 then .ok (.seReg (fieldX w) (fieldY w)) else .error .invalidOpcode
  | 0x6#4 => .ok (.ldImm (fieldX w) (fieldNN w))
  | 0x7#4 => .ok (.addImm (fieldX w) (fieldNN w))
  | 0x8#4 => decode8 w
  | 0x9#4 => if fieldN w = 0 then .ok (.sneReg (fieldX w) (fieldY w)) else .error .invalidOpcode
  | 0xA#4 => .ok (.ldI (fieldNNN w))
  | 0xB#4 => .ok (.jpV0 (fieldNNN w))
  | 0xC#4 => .ok (.rnd (fieldX w) (fieldNN w))
  | 0xD#4 => .ok (.drw (fieldX w) (fieldY w) (fieldN w))
  | 0xE#4 => decodeE w
  | _ => decodeF w

/-- The decoder on bytes as they lie in memory, lowest address first: every instruction is two
bytes, high byte first (R70, R55); the rest of the bytes is handed on. -/
def decodeBytes : List Byte → Except Reject (Instr × List Byte)
  | hi :: lo :: rest =>
    match decode (wordOfBytes hi lo) with
    | .ok i => .ok (i, rest)
    | .error r => .error r
  | _ => .error .truncated

/-- The opcode whose bits are `w` as spec/opcode_table.json numbers them; bits at `nbits` and
above are 0, and an opcode has 16 bits (R70). -/
def tableWord (nbits w : Nat) : Word := BitVec.ofNat 16 (w % 2 ^ nbits)

/-- The instruction the decoder reads from the table word `w`, laid out high byte first (R55). -/
def decodeTableWord (nbits w : Nat) : Option Instr :=
  let op := tableWord nbits w
  match decodeBytes [op.extractLsb' 8 8, op.extractLsb' 0 8] with
  | .ok (i, _) => some i
  | .error _ => none

/-! ## Encoding (R71, R74) -/

/-- Format `NNN` of R71. -/
def formatNNN (op : BitVec 4) (nnn : BitVec 12) : Word := op ++ nnn

/-- Format `XNN` of R71. -/
def formatXNN (op : BitVec 4) (x : Reg) (nn : Byte) : Word := op ++ regBits x ++ nn

/-- Formats `XYF` and `XYN` of R71. -/
def formatXYN (op : BitVec 4) (x y : Reg) (n : BitVec 4) : Word :=
  op ++ regBits x ++ regBits y ++ n

/-- The opcode of an instruction, from the patterns of R74. -/
def encode : Instr → Word
  | .cls => formatNNN 0x0 0x0E0
  | .ret => formatNNN 0x0 0x0EE
  | .jp nnn => formatNNN 0x1 nnn
  | .call nnn => formatNNN 0x2 nnn
  | .seImm x nn => formatXNN 0x3 x nn
  | .sneImm x nn => formatXNN 0x4 x nn
  | .seReg x y => formatXYN 0x5 x y 0x0
  | .ldImm x nn => formatXNN 0x6 x nn
  | .addImm x nn => formatXNN 0x7 x nn
  | .ldReg x y => formatXYN 0x8 x y 0x0
  | .orReg x y => formatXYN 0x8 x y 0x1
  | .andReg x y => formatXYN 0x8 x y 0x2
  | .xorReg x y => formatXYN 0x8 x y 0x3
  | .addReg x y => formatXYN 0x8 x y 0x4
  | .subReg x y => formatXYN 0x8 x y 0x5
  | .shr x y => formatXYN 0x8 x y 0x6
  | .subnReg x y => formatXYN 0x8 x y 0x7
  | .shl x y => formatXYN 0x8 x y 0xE
  | .sneReg x y => formatXYN 0x9 x y 0x0
  | .ldI nnn => formatNNN 0xA nnn
  | .jpV0 nnn => formatNNN 0xB nnn
  | .rnd x nn => formatXNN 0xC x nn
  | .drw x y n => formatXYN 0xD x y n
  | .skp x => formatXNN 0xE x 0x9E
  | .sknp x => formatXNN 0xE x 0xA1
  | .ldVxDt x => formatXNN 0xF x 0x07
  | .ldDtVx x => formatXNN 0xF x 0x15
  | .ldStVx x => formatXNN 0xF x 0x18
  | .addI x => formatXNN 0xF x 0x1E
  | .ldKey x => formatXNN 0xF x 0x0A
  | .ldF x => formatXNN 0xF x 0x29
  | .ldB x => formatXNN 0xF x 0x33
  | .storeRegs x => formatXNN 0xF x 0x55
  | .loadRegs x => formatXNN 0xF x 0x65
  | .sys nnn => formatNNN 0x0 nnn

/-- The two bytes of an instruction in memory, high byte at the lower address (R55). -/
def encodeBytes (i : Instr) : List Byte := [(encode i).extractLsb' 8 8, (encode i).extractLsb' 0 8]

/-! ## The opcode map as masks and matches (R74) -/

/-- A row of the map: an opcode selects it when `op & mask = bits`. -/
structure OpcodeRow where
  mask : Word
  bits : Word
  deriving DecidableEq, Repr

/-- `op` selects the row (R74). -/
def OpcodeRow.selects (r : OpcodeRow) (w : Word) : Bool := w &&& r.mask == r.bits

/-- Rows 1 to 9 of R74. -/
def opcodeRows1to9 : List OpcodeRow :=
  [⟨0xFFFF, 0x00E0⟩, ⟨0xFFFF, 0x00EE⟩, ⟨0xF000, 0x1000⟩, ⟨0xF000, 0x2000⟩, ⟨0xF000, 0x3000⟩,
   ⟨0xF000, 0x4000⟩, ⟨0xF00F, 0x5000⟩, ⟨0xF000, 0x6000⟩, ⟨0xF000, 0x7000⟩]

/-- Rows 10 to 19 of R74. -/
def opcodeRows10to19 : List OpcodeRow :=
  [⟨0xF00F, 0x8000⟩, ⟨0xF00F, 0x8001⟩, ⟨0xF00F, 0x8002⟩, ⟨0xF00F, 0x8003⟩, ⟨0xF00F, 0x8004⟩,
   ⟨0xF00F, 0x8005⟩, ⟨0xF00F, 0x8006⟩, ⟨0xF00F, 0x8007⟩, ⟨0xF00F, 0x800E⟩, ⟨0xF00F, 0x9000⟩]

/-- Rows 20 to 34 of R74. -/
def opcodeRows20to34 : List OpcodeRow :=
  [⟨0xF000, 0xA000⟩, ⟨0xF000, 0xB000⟩, ⟨0xF000, 0xC000⟩, ⟨0xF000, 0xD000⟩, ⟨0xF0FF, 0xE09E⟩,
   ⟨0xF0FF, 0xE0A1⟩, ⟨0xF0FF, 0xF007⟩, ⟨0xF0FF, 0xF015⟩, ⟨0xF0FF, 0xF018⟩, ⟨0xF0FF, 0xF01E⟩,
   ⟨0xF0FF, 0xF00A⟩, ⟨0xF0FF, 0xF029⟩, ⟨0xF0FF, 0xF033⟩, ⟨0xF0FF, 0xF055⟩, ⟨0xF0FF, 0xF065⟩]

/-- The 34 rows that define an instruction (R74). -/
def opcodeMap : List OpcodeRow := opcodeRows1to9 ++ opcodeRows10to19 ++ opcodeRows20to34

/-- Row 35 of R74, `0NNN`: selected only when no row of `opcodeMap` is. -/
def sysRow : OpcodeRow := ⟨0xF000, 0x0000⟩

/-- The row of an instruction, by the number R74 gives it less one. -/
def Instr.rowIndex : Instr → Nat
  | .cls => 0 | .ret => 1 | .jp _ => 2 | .call _ => 3 | .seImm _ _ => 4 | .sneImm _ _ => 5
  | .seReg _ _ => 6 | .ldImm _ _ => 7 | .addImm _ _ => 8 | .ldReg _ _ => 9 | .orReg _ _ => 10
  | .andReg _ _ => 11 | .xorReg _ _ => 12 | .addReg _ _ => 13 | .subReg _ _ => 14
  | .shr _ _ => 15 | .subnReg _ _ => 16 | .shl _ _ => 17 | .sneReg _ _ => 18 | .ldI _ => 19
  | .jpV0 _ => 20 | .rnd _ _ => 21 | .drw _ _ _ => 22 | .skp _ => 23 | .sknp _ => 24
  | .ldVxDt _ => 25 | .ldDtVx _ => 26 | .ldStVx _ => 27 | .addI _ => 28 | .ldKey _ => 29
  | .ldF _ => 30 | .ldB _ => 31 | .storeRegs _ => 32 | .loadRegs _ => 33 | .sys _ => 34

/-- The row of the opcode map an instruction stands for (R74). -/
def Instr.row (i : Instr) : OpcodeRow := opcodeMap.getD i.rowIndex sysRow

end Sys2Proof
end

