-- ==== Sys2Proof/Config.lean ====
section
/-! DEFINITION. What is fixed for the machine (spec 00_scope.md R5) and its free values.
A free value is an opaque constant: nothing can be proved of what it is. -/

namespace Sys2Proof.Config

/-- `MEMSIZE`: addresses 0x000 to 0xFFF exist, no other (R5, R50). -/
abbrev memSize : Nat := 4096

/-- `PROGBASE`: where a program is loaded and where execution starts (R5, R202). -/
abbrev progBase : Nat := 0x200

/-- `PROGMAX`: the longest program `Load` accepts (R5, R66). -/
abbrev progMax : Nat := 3584

/-- `FONTLEN`: the font table occupies addresses 0x000 to 0x04F (R5, R31). -/
abbrev fontLen : Nat := 80

/-- The length of one glyph in bytes (R5, R31). -/
abbrev glyphStride : Nat := 5

/-- `STACKDEPTH` (R5, R26). -/
abbrev stackDepth : Nat := 16

/-- `DISPW`, the columns of the display (R5, R29). -/
abbrev dispW : Nat := 64

/-- `DISPH`, the rows of the display (R5, R29). -/
abbrev dispH : Nat := 32

/-- `NKEYS` (R5). -/
abbrev nKeys : Nat := 16

/-- The type of the parameter `FONT` of `Reset`: 80 bytes (R6, R31). -/
abbrev Font := Vector Byte fontLen

/-- The glyphs 0 to 7 of the spec's recommended value of `FONT` (R31). -/
def glyphs0to7 : List Byte :=
  [0xF0, 0x90, 0x90, 0x90, 0xF0] ++ [0x20, 0x60, 0x20, 0x20, 0x70] ++
  [0xF0, 0x10, 0xF0, 0x80, 0xF0] ++ [0xF0, 0x10, 0xF0, 0x10, 0xF0] ++
  [0x90, 0x90, 0xF0, 0x10, 0x10] ++ [0xF0, 0x80, 0xF0, 0x10, 0xF0] ++
  [0xF0, 0x80, 0xF0, 0x90, 0xF0] ++ [0xF0, 0x10, 0x20, 0x40, 0x40]

/-- The glyphs 8 to F of the spec's recommended value of `FONT` (R31). -/
def glyphs8toF : List Byte :=
  [0xF0, 0x90, 0xF0, 0x90, 0xF0] ++ [0xF0, 0x90, 0xF0, 0x10, 0xF0] ++
  [0xF0, 0x90, 0xF0, 0x90, 0x90] ++ [0xE0, 0x90, 0xE0, 0x90, 0xE0] ++
  [0xF0, 0x80, 0x80, 0x80, 0xF0] ++ [0xE0, 0x90, 0x90, 0x90, 0xE0] ++
  [0xF0, 0x80, 0xF0, 0x80, 0xF0] ++ [0xF0, 0x80, 0xF0, 0x80, 0x80]

/-- The recommended value of the parameter `FONT` (R31; PRESUMED, log entry 1). The event
`Reset` takes any `FONT` as its argument; this one is the font of `State.reset`. -/
def recommendedFont : Font := ⟨(glyphs0to7 ++ glyphs8toF).toArray, rfl⟩

/-- Free value: is the host's event number `n`, once the listed schedule has run out, a `Tick`
(else a `Step`)? The order of `Step` and `Tick` is not fixed (R7; log entry 2). -/
opaque freeTick : Nat → Bool

/-- Free value: the `keys` sample of the host's event number `n` when it is a `Step` nobody
listed (R10, R154; log entry 2). -/
opaque freeKeys : Nat → Word

/-- Free value: the `rnd` byte of the host's event number `n` when it is a `Step` nobody
listed (R10, R122; log entry 2). -/
opaque freeRnd : Nat → Byte

end Sys2Proof.Config
end

