-- ==== Sys2Proof/Machine/State.lean ====
section
/-! DEFINITION. The state of the core as plain data (spec 10_state.md), the events the host issues
(00_scope.md R6), and the state `Reset` leaves (70_reset_and_hazards.md R200, R201). -/

namespace Sys2Proof.Machine

/-- The four fatal conditions (R170). -/
inductive Condition where
  /-- The fetched opcode matches none of the 34 patterns (R78). -/
  | invalidOpcode
  /-- 2NNN executed with `SP = 16` (R102). -/
  | stackOverflow
  /-- 00EE executed with `SP = 0` (R100). -/
  | stackUnderflow
  /-- A memory access at an address above 0xFFF (R54, R67). -/
  | addressOutOfRange
  deriving DecidableEq, Repr

/-- `RUN`, the run status (R33). -/
inductive RunStatus where
  | running
  | halted (c : Condition)
  deriving DecidableEq, Repr

/-- What the core has reported to the host of its last `Load` (R66, R190; log entry 9). -/
inductive LoadReport where
  | nothing
  | loaded
  | romTooLarge
  deriving DecidableEq, Repr

/-- The four atomic events of the core (R6). -/
inductive Event where
  /-- `Reset` with the parameter `FONT` (R200). -/
  | reset (font : Config.Font)
  /-- `Load` of a program (R66). -/
  | load (bytes : List Byte)
  /-- `Step` with the key sample and the random byte of this `Step` (R40, R10). -/
  | step (keys : Word) (rnd : Byte)
  /-- `Tick` of the timers (R183). -/
  | tick
  deriving DecidableEq, Repr

/-- The 4096-byte memory (R30, R50): the bytes that differ from what `Reset` leaves, as pairs of
address and byte, addresses strictly rising. `Memory.wf` states the form. -/
abbrev Memory := List Host.Cell

/-- `DISP` (R29): row `y` is the word at index `y`, and its bit `x` is the cell in column `x`. -/
abbrev Display := Vector (BitVec Config.dispW) Config.dispH

/-- The state: first what the spec gives the machine, then the model's own fields. -/
structure State where
  /-- `V[0]` to `V[15]` (R20). -/
  v : Vector Byte 16
  /-- `I`, the index register (R23). -/
  i : Word
  /-- `PC`, the program counter (R24). -/
  pc : Word
  /-- `SP`, the number of return addresses on the stack, 0 to 16 (R25). -/
  sp : Fin 17
  /-- `stack[0]` to `stack[15]` (R26). -/
  stack : Vector Word 16
  /-- `DT`, the delay timer (R27). -/
  dt : Byte
  /-- `ST`, the sound timer (R28). -/
  st : Byte
  /-- `memory` (R30). -/
  mem : Memory
  /-- `DISP`, the Display Surface (R29). -/
  disp : Display
  /-- `RUN` (R33). -/
  run : RunStatus
  /-- `KPREV`, the key sample of the last completed `Step` (R34). -/
  kprev : Word
  /-- The boundary signal `keys` as the `Step` under way sampled it (R10, R154; log entry 8). -/
  keys : Word
  /-- The boundary signal `rnd` of the `Step` under way (R10; log entry 8). -/
  rnd : Byte
  /-- The events the host has yet to issue, oldest first: the parameter `schedule` (R7; log
  entry 2). -/
  schedule : List Event
  /-- How many free events have been taken since the listed schedule ran out (log entry 2). -/
  eventCount : Nat
  /-- `Load` is still defined: the state is the one `Reset` leaves (R66; log entry 10). -/
  loadable : Bool
  /-- The report of the last `Load` (R66; log entry 9). -/
  loadReport : LoadReport
  deriving DecidableEq, Repr

/-- The faults of the model: there is none. Every fatal condition of the spec has a described
effect, `RUN <- Halted(c)` and nothing else (R171), so it is a next state (log entry 11). -/
inductive Fault where
  deriving DecidableEq, Repr

/-- Why the model gives an event no meaning. -/
inductive Refusal where
  /-- An instruction whose arm in `exec` has no meaning; no arm raises it. Safe. -/
  | notModelled (mnemonic : String)
  /-- Raised by the event `Load` anywhere but in the state `Reset` leaves: "a model refuses a
  `Load` at any other time" (R66). Safe: the machine stops where the spec defines nothing. -/
  | loadNotAfterReset
  deriving DecidableEq, Repr

/-- The state right after `Reset` with the recommended `FONT` (R200, R201). Memory lists nothing,
for an unlisted address reads as `Reset` leaves it (log entry 1). The last six fields are the
model's own (log entry 3). -/
def State.reset : State where
  v := Vector.replicate 16 0
  i := 0
  pc := 0x200
  sp := 0
  stack := Vector.replicate 16 0
  dt := 0
  st := 0
  mem := []
  disp := Vector.replicate 32 0
  run := .running
  kprev := 0
  keys := 0
  rnd := 0
  schedule := []
  eventCount := 0
  loadable := true
  loadReport := .nothing

end Sys2Proof.Machine
end

