-- ==== Sys2Proof/Machine/Ops.lean ====
section
/-! DEFINITION. The named operations over memory, registers, stack, display and program counter,
and the raising of a fatal condition (spec 00_scope.md R13, 10_state.md R40 to R42, 20_memory.md R52
to R54, R67, 43_display.md R141, 60_exceptions.md R171). -/

namespace Sys2Proof.Machine

/-! ## Memory (R50 to R57) -/

/-- What an address reads as while nothing has been stored there: the reset content, `FONT` at
0x000 to 0x04F and 0 elsewhere (R30, R58; log entry 1). -/
def unlistedByte (a : Nat) : Byte :=
  if h : a < Config.fontLen then Config.recommendedFont[a] else 0

/-- The byte at `a` (R50). -/
def Memory.readByte (m : Memory) (a : Nat) : Byte :=
  match m with
  | [] => unlistedByte a
  | c :: rest => if a = c.1 then c.2 else Memory.readByte rest a

/-- The cells a byte needs: none if it is what the unlisted address reads as. -/
def cellFor (a : Nat) (b : Byte) : Memory := if b = unlistedByte a then [] else [(a, b)]

/-- Memory after `b` is stored at `a` (R53), in the canonical form `Memory.wf`. -/
def Memory.writeByte (m : Memory) (a : Nat) (b : Byte) : Memory :=
  match m with
  | [] => cellFor a b
  | c :: rest =>
    if a < c.1 then cellFor a b ++ c :: rest
    else if a = c.1 then cellFor a b ++ rest
    else c :: Memory.writeByte rest a b

/-- Bytes stored at ascending addresses from `a` (R55). -/
def Memory.writeBytes (m : Memory) (a : Nat) : List Byte → Memory
  | [] => m
  | b :: bs => Memory.writeBytes (m.writeByte a b) (a + 1) bs

/-- The canonical form: addresses of the address space, strictly rising, and no cell that says what
the unlisted address reads as anyway. -/
abbrev Memory.wf (m : Memory) : Prop :=
  m.Pairwise (fun c d => c.1 < d.1) ∧
    ∀ c ∈ m, c.1 < Config.memSize ∧ c.2 ≠ unlistedByte c.1

/-- The `n` bytes from address `a` on all exist; with `n = 0` nothing is accessed (R67). -/
def inRange (a n : Nat) : Bool := n == 0 || decide (a + n ≤ Config.memSize)

/-- `MemRead(a, 1)`; nothing where it raises `AddressOutOfRange` (R52). -/
def State.memRead (s : State) (a : Nat) : Option Byte :=
  if inRange a 1 then some (s.mem.readByte a) else none

/-- The `n` bytes from `a` on, ascending, after the check of the whole range (R67). -/
def State.memReadBlock (s : State) (a n : Nat) : Option (List Byte) :=
  if inRange a n then some ((List.range n).map fun k => s.mem.readByte (a + k)) else none

/-- The bytes stored from `a` on, ascending, after the check of the whole range (R67). -/
def State.memWriteBlock (s : State) (a : Nat) (bytes : List Byte) : Option State :=
  if inRange a bytes.length then some { s with mem := s.mem.writeBytes a bytes } else none

/-- `Fetch(PC)`: the two bytes at `PC` and `PC + 1`, high byte first; nothing where either does not
exist. The addresses are integers, without wrap (R54, R40). -/
def State.fetch (s : State) : Option Word :=
  match s.memRead s.pc.toNat, s.memRead (s.pc.toNat + 1) with
  | some hi, some lo => some (wordOfBytes hi lo)
  | _, _ => none

/-! ## Registers -/

/-- `V[x] <- b` (R13, R20). -/
def State.setV (s : State) (x : Reg) (b : Byte) : State := { s with v := s.v.set x b }

/-- The register file after bytes are put into the registers from number `k` on, ascending. -/
def putRegs (v : Vector Byte 16) (k : Nat) : List Byte → Vector Byte 16
  | [] => v
  | b :: bs => putRegs (v.setIfInBounds k b) (k + 1) bs

/-- `V[0]` to `V[x]`, ascending (R134). -/
def State.regsUpTo (s : State) (x : Reg) : List Byte := s.v.toList.take (x.val + 1)

/-- The flag into VF, then the result into `V[x]`: the later write wins (R42). -/
def State.setFlagThenResult (s : State) (x : Reg) (flag result : Byte) : State :=
  (s.setV VF flag).setV x result

/-- `I <- w` (R13, R23). -/
def State.setI (s : State) (w : Word) : State := { s with i := w }

/-- `DT <- b` (R13, R27). -/
def State.setDt (s : State) (b : Byte) : State := { s with dt := b }

/-- `ST <- b` (R13, R28). -/
def State.setSt (s : State) (b : Byte) : State := { s with st := b }

/-- `DISP` replaced as one atomic update (R29). -/
def State.setDisp (s : State) (d : Display) : State := { s with disp := d }

/-- `KPREV <- keys`, the last action of a completed `Step` (R34, R40). -/
def State.recordKeys (s : State) : State := { s with kprev := s.keys }

/-! ## Program counter -/

/-- `npc`, the address of the next instruction, the `PC` an instruction sees (R40). -/
def State.npc (s : State) : Word := s.pc + 2

/-- `pc <- w` (R13). -/
def State.setPc (s : State) (w : Word) : State := { s with pc := w }

/-- The next PC of an instruction that does not write `pc` (R41). -/
def State.advance (s : State) : State := s.setPc s.npc

/-- A skip adds 2 to the already advanced PC when its condition holds (R99). -/
def State.skipIf (s : State) (c : Bool) : State := s.setPc (if c then s.npc + 2 else s.npc)

/-! ## Return stack (R25, R26) -/

/-- The state after `w` is pushed; nothing where the stack is full (R102). -/
def State.push (s : State) (w : Word) : Option State :=
  if h : s.sp.val < Config.stackDepth then
    some { s with stack := s.stack.set s.sp.val w, sp := ⟨s.sp.val + 1, Nat.succ_lt_succ h⟩ }
  else none

/-- The popped address and the state after the pop, the slot keeping its value; nothing where the
stack is empty (R100, R26). -/
def State.pop (s : State) : Option (Word × State) :=
  if h : 0 < s.sp.val then
    some (s.stack[s.sp.val - 1]'(by omega), { s with sp := ⟨s.sp.val - 1, by omega⟩ })
  else none

/-! ## Display (R29, R141) -/

/-- All cells off (R140). -/
def blankDisplay : Display := Vector.replicate Config.dispH 0

/-- `DISP[x,y]`; column and row taken modulo the screen's dimensions (R141, R143). -/
def Display.cell (d : Display) (x y : Nat) : Bool :=
  (d[y % Config.dispH]'(Nat.mod_lt _ (by decide))).getLsbD (x % Config.dispW)

/-- `DISP[x,y] <- DISP[x,y] ^ 1` (R141). -/
def Display.toggle (d : Display) (x y : Nat) : Display :=
  d.set (y % Config.dispH)
    ((d[y % Config.dispH]'(Nat.mod_lt _ (by decide))) ^^^
      BitVec.twoPow Config.dispW (x % Config.dispW))
    (Nat.mod_lt _ (by decide))

/-- The drawing so far: the display, and whether a cell went from on to off (`coll`, R141). -/
structure Canvas where
  disp : Display
  coll : Bool
  deriving DecidableEq, Repr

/-- A sprite bit that is 1, at column `x` and row `y` (R141). -/
def Canvas.plot (p : Canvas) (x y : Nat) : Canvas :=
  ⟨p.disp.toggle x y, p.coll || p.disp.cell x y⟩

/-- The pixel of a sprite row at column offset `col`: bit `7 - col` of the row (R142). -/
def spriteBit (b : Byte) (col : Nat) : Bool := b.getLsbD (7 - col)

/-- The pixels of one sprite row from column offset `col` on, `left` of them still to go. -/
def Canvas.plotRow (p : Canvas) (x y : Nat) (b : Byte) (col : Nat) : Nat → Canvas
  | 0 => p
  | left + 1 =>
    Canvas.plotRow (if spriteBit b col then p.plot (x + col) y else p) x y b (col + 1) left

/-- The sprite's rows from row `y` down, eight pixels each (R141). -/
def Canvas.plotRows (p : Canvas) (x y : Nat) : List Byte → Canvas
  | [] => p
  | b :: bs => Canvas.plotRows (p.plotRow x y b 0 8) x (y + 1) bs

/-! ## Fatal conditions (R170 to R176) -/

/-- What one event of the machine can answer. -/
abbrev Answer := Host.Outcome State Fault Refusal

/-- `raise c`, the precise halt: `RUN <- Halted(c)` and no other write (R171). There is no return
from it beside `Reset` (R172, R176). -/
def raise (c : Condition) (s : State) : Answer := .next { s with run := .halted c }

/-- The answer of an instruction that completes if its accesses do, and else raises `c`. -/
def orRaise (c : Condition) (s : State) : Option State → Answer
  | some t => .next t
  | none => raise c s

/-- The numeric code of a fatal condition (R170). -/
def Condition.code : Condition → Nat
  | .invalidOpcode => 1
  | .stackOverflow => 2
  | .stackUnderflow => 3
  | .addressOutOfRange => 4

/-- The numeric code of `RUN`, 0 while running (R170). -/
def RunStatus.code : RunStatus → Nat
  | .running => 0
  | .halted c => c.code

/-- The boundary signal `tone` (R10, R185). -/
def State.tone (s : State) : Bool := decide (s.st.toNat > 0)

end Sys2Proof.Machine
end

