-- ==== Sys2Proof/Machine/Operands.lean ====
section
/-! DEFINITION. The operand forms (spec 30_encoding.md R72, R73, 42_index_memory.md R136,
44_input.md R152, R153). All are read from the state before the instruction (10_state.md R42). -/

namespace Sys2Proof.Machine

/-- The register operand `V[x]` (R73). -/
def State.reg (s : State) (x : Reg) : Byte := s.v[x]

/-- A 12-bit immediate as a 16-bit value, zero-extended (R72). -/
def zextImm (nnn : BitVec 12) : Word := nnn.setWidth 16

/-- An 8-bit value as a 16-bit value, zero-extended (R12). -/
def zextByte (b : Byte) : Word := b.setWidth 16

/-- The effective address of offset `k`: `I + k` as an integer, no wrap and no mask (R136). -/
def State.effAddr (s : State) (k : Nat) : Nat := s.i.toNat + k

/-- The three decimal digits of a byte, hundreds first (R133). -/
def decimalDigits (b : Byte) : List Byte :=
  [BitVec.ofNat 8 (b.toNat / 100), BitVec.ofNat 8 (b.toNat / 10 % 10), BitVec.ofNat 8 (b.toNat % 10)]

/-- `Pressed(c)`: key code `c` is down in this `Step`'s sample; a code above 15 is no key (R153). -/
def State.pressed (s : State) (c : Byte) : Bool :=
  decide (c.toNat < Config.nKeys) && s.keys.getLsbD c.toNat

/-- The keys down in this `Step`'s sample that were up in the previous one (R152). -/
def State.newKeys (s : State) : Word := s.keys &&& ~~~ s.kprev

/-- The smallest newly pressed key, if there is one (R152). -/
def State.newKey (s : State) : Option Byte :=
  ((List.range Config.nKeys).find? fun k => s.newKeys.getLsbD k).map fun k => BitVec.ofNat 8 k

end Sys2Proof.Machine
end

