-- ==== Sys2Proof/Machine/Flags.lean ====
section
/-! DEFINITION. Every value written to VF as a flag (spec 10_state.md R21, 41_alu.md R118): always 0
or 1. -/

namespace Sys2Proof.Machine

/-- A flag as the byte VF holds: 1 when it is set, else 0 (R21). -/
def flagByte (b : Bool) : Byte := if b then 1 else 0

/-- 8XY4: the carry out of bit 7 (R116). -/
def carryFlag (a b : Byte) : Byte := flagByte (decide (a.toNat + b.toNat > 255))

/-- 8XY5 and 8XY7: the minuend is strictly greater than the subtrahend (R117, R120). -/
def greaterFlag (a b : Byte) : Byte := flagByte (decide (a.toNat > b.toNat))

/-- 8XY6: the bit shifted out to the right (R119). -/
def lowBitFlag (a : Byte) : Byte := flagByte (a.getLsbD 0)

/-- 8XYE: the bit shifted out to the left (R121). -/
def highBitFlag (a : Byte) : Byte := flagByte (a.getLsbD 7)

/-- DXYN: some cell went from on to off (R141). -/
def collisionFlag (c : Canvas) : Byte := flagByte c.coll

end Sys2Proof.Machine
end

