-- ==== Sys2Proof/Machine/Alu.lean ====
section
/-! DEFINITION. Register loads, arithmetic, logic, shifts and the random byte (spec 41_alu.md): 6XNN,
7XNN, 8XY0 to 8XY7, 8XYE, CXNN. 8-bit results wrap modulo 256 (R118). -/

namespace Sys2Proof.Machine

/-- 6XNN (R110). -/
def execLdImm (x : Reg) (nn : Byte) (s : State) : Answer := .next (s.setV x nn).advance

/-- 7XNN: no flag (R111). -/
def execAddImm (x : Reg) (nn : Byte) (s : State) : Answer :=
  .next (s.setV x (s.reg x + nn)).advance

/-- 8XY0 (R112). -/
def execLdReg (x y : Reg) (s : State) : Answer := .next (s.setV x (s.reg y)).advance

/-- 8XY1: VF is not touched (R113). -/
def execOrReg (x y : Reg) (s : State) : Answer :=
  .next (s.setV x (s.reg x ||| s.reg y)).advance

/-- 8XY2: VF is not touched (R114). -/
def execAndReg (x y : Reg) (s : State) : Answer :=
  .next (s.setV x (s.reg x &&& s.reg y)).advance

/-- 8XY3: VF is not touched (R115). -/
def execXorReg (x y : Reg) (s : State) : Answer :=
  .next (s.setV x (s.reg x ^^^ s.reg y)).advance

/-- 8XY4: VF is the carry (R116). -/
def execAddReg (x y : Reg) (s : State) : Answer :=
  .next (s.setFlagThenResult x (carryFlag (s.reg x) (s.reg y)) (s.reg x + s.reg y)).advance

/-- 8XY5: `V[X] - V[Y]`, VF says whether `V[X] > V[Y]` (R117). -/
def execSubReg (x y : Reg) (s : State) : Answer :=
  .next (s.setFlagThenResult x (greaterFlag (s.reg x) (s.reg y)) (s.reg x - s.reg y)).advance

/-- 8XY6: `V[X]` shifted right by one, VF the bit shifted out; `Y` is ignored (R119). -/
def execShr (x _y : Reg) (s : State) : Answer :=
  .next (s.setFlagThenResult x (lowBitFlag (s.reg x)) (s.reg x >>> 1)).advance

/-- 8XY7: `V[Y] - V[X]`, VF says whether `V[Y] > V[X]` (R120). -/
def execSubnReg (x y : Reg) (s : State) : Answer :=
  .next (s.setFlagThenResult x (greaterFlag (s.reg y) (s.reg x)) (s.reg y - s.reg x)).advance

/-- 8XYE: `V[X]` shifted left by one, VF the bit shifted out; `Y` is ignored (R121). -/
def execShl (x _y : Reg) (s : State) : Answer :=
  .next (s.setFlagThenResult x (highBitFlag (s.reg x)) (s.reg x <<< 1)).advance

/-- CXNN: the `rnd` byte of this `Step`, masked (R122). -/
def execRnd (x : Reg) (nn : Byte) (s : State) : Answer := .next (s.setV x (s.rnd &&& nn)).advance

end Sys2Proof.Machine
end

