-- ==== Sys2Proof/Machine/Draw.lean ====
section
/-! DEFINITION. The display instructions (spec 43_display.md): 00E0, DXYN. -/

namespace Sys2Proof.Machine

/-- 00E0: every cell off (R140). -/
def execCls (s : State) : Answer := .next (s.setDisp blankDisplay).advance

/-- The drawing of `N` rows whose bytes are given, at the column in `V[X]` and the row in `V[Y]`,
both as they stood before the instruction (R141, R42). -/
def State.drawSprite (s : State) (x y : Reg) (bytes : List Byte) : Canvas :=
  Canvas.plotRows ⟨s.disp, false⟩ (s.reg x).toNat (s.reg y).toNat bytes

/-- DXYN: the sprite at `I` exclusive-ored into `DISP`, VF the collision flag, written always;
with `N = 0` no memory is read (R141). -/
def execDrw (x y : Reg) (n : BitVec 4) (s : State) : Answer :=
  orRaise .addressOutOfRange s
    ((s.memReadBlock (s.effAddr 0) n.toNat).map fun bytes =>
      let c := s.drawSprite x y bytes
      ((s.setDisp c.disp).setV VF (collisionFlag c)).advance)

end Sys2Proof.Machine
end

