-- ==== Sys2Proof/Machine/Flow.lean ====
section
/-! DEFINITION. Control transfer and skips (spec 40_flow.md): 00EE, 1NNN, 2NNN, BNNN, 3XNN, 4XNN,
5XY0, 9XY0, and the invalid 0NNN (30_encoding.md R78). -/

namespace Sys2Proof.Machine

/-- 00EE: return, or `StackUnderflow` on an empty stack (R100). -/
def execRet (s : State) : Answer :=
  orRaise .stackUnderflow s (s.pop.map fun (target, t) => t.setPc target)

/-- 1NNN: jump; the target is not checked here (R101). -/
def execJp (nnn : BitVec 12) (s : State) : Answer := .next (s.setPc (zextImm nnn))

/-- 2NNN: push `npc` and jump, or `StackOverflow` on a full stack (R102). -/
def execCall (nnn : BitVec 12) (s : State) : Answer :=
  orRaise .stackOverflow s ((s.push s.npc).map fun t => t.setPc (zextImm nnn))

/-- BNNN: jump to `NNN + V[0]`, neither wrapped nor masked (R103). -/
def execJpV0 (nnn : BitVec 12) (s : State) : Answer :=
  .next (s.setPc (zextImm nnn + zextByte (s.reg 0)))

/-- 3XNN: skip if `V[X] = NN` (R104). -/
def execSeImm (x : Reg) (nn : Byte) (s : State) : Answer := .next (s.skipIf (s.reg x == nn))

/-- 4XNN: skip if `V[X] ≠ NN` (R105). -/
def execSneImm (x : Reg) (nn : Byte) (s : State) : Answer := .next (s.skipIf (s.reg x != nn))

/-- 5XY0: skip if `V[X] = V[Y]` (R106). -/
def execSeReg (x y : Reg) (s : State) : Answer := .next (s.skipIf (s.reg x == s.reg y))

/-- 9XY0: skip if `V[X] ≠ V[Y]` (R107). -/
def execSneReg (x y : Reg) (s : State) : Answer := .next (s.skipIf (s.reg x != s.reg y))

/-- 0NNN: no instruction of this hardware; executing it raises `InvalidOpcode` (R78). -/
def execSys (_nnn : BitVec 12) (s : State) : Answer := raise .invalidOpcode s

end Sys2Proof.Machine
end

