-- ==== Sys2Proof/Machine/IndexMemory.lean ====
section
/-! DEFINITION. The index register and the memory instructions (spec 42_index_memory.md): ANNN, FX1E,
FX29, FX33, FX55, FX65. The whole range is checked before anything is written (20_memory.md R67). -/

namespace Sys2Proof.Machine

/-- ANNN (R130). -/
def execLdI (nnn : BitVec 12) (s : State) : Answer := .next (s.setI (zextImm nnn)).advance

/-- FX1E: the sum modulo 65536, no flag and no check (R131). -/
def execAddI (x : Reg) (s : State) : Answer := .next (s.setI (s.i + zextByte (s.reg x))).advance

/-- FX29: `V[X] * 5`, `V[X]` not reduced to a nibble (R132). -/
def execLdF (x : Reg) (s : State) : Answer :=
  .next (s.setI (BitVec.ofNat 16 ((s.reg x).toNat * Config.glyphStride))).advance

/-- FX33: the decimal digits of `V[X]` to `I`, `I + 1`, `I + 2` (R133). -/
def execLdB (x : Reg) (s : State) : Answer :=
  orRaise .addressOutOfRange s
    ((s.memWriteBlock (s.effAddr 0) (decimalDigits (s.reg x))).map State.advance)

/-- FX55: `V[0]` to `V[X]` to `I` to `I + X`; `I` unchanged (R134). -/
def execStoreRegs (x : Reg) (s : State) : Answer :=
  orRaise .addressOutOfRange s
    ((s.memWriteBlock (s.effAddr 0) (s.regsUpTo x)).map State.advance)

/-- FX65: `V[0]` to `V[X]` from `I` to `I + X`; `I` unchanged (R135). -/
def execLoadRegs (x : Reg) (s : State) : Answer :=
  orRaise .addressOutOfRange s
    ((s.memReadBlock (s.effAddr 0) (x.val + 1)).map fun bytes =>
      State.advance { s with v := putRegs s.v 0 bytes })

end Sys2Proof.Machine
end

