-- ==== Sys2Proof/Machine/Keypad.lean ====
section
/-! DEFINITION. The keypad instructions (spec 44_input.md): EX9E, EXA1, FX0A. -/

namespace Sys2Proof.Machine

/-- EX9E: skip if the key whose code is in `V[X]` is pressed (R150). -/
def execSkp (x : Reg) (s : State) : Answer := .next (s.skipIf (s.pressed (s.reg x)))

/-- EXA1: skip if the key whose code is in `V[X]` is not pressed (R151). -/
def execSknp (x : Reg) (s : State) : Answer := .next (s.skipIf (!s.pressed (s.reg x)))

/-- The state after FX0A: the code of the newly pressed key in `V[X]`, or, while there is none,
nothing changed and `PC` left at this instruction (R152). -/
def State.awaitKey (s : State) (x : Reg) : State :=
  match s.newKey with
  | some k => (s.setV x k).advance
  | none => s

/-- FX0A: wait for a key press by executing again (R152). -/
def execLdKey (x : Reg) (s : State) : Answer := .next (s.awaitKey x)

end Sys2Proof.Machine
end

