-- ==== Sys2Proof/Machine/Timers.lean ====
section
/-! DEFINITION. The timer instructions (spec 45_timers.md): FX07, FX15, FX18. -/

namespace Sys2Proof.Machine

/-- FX07 (R160). -/
def execLdVxDt (x : Reg) (s : State) : Answer := .next (s.setV x s.dt).advance

/-- FX15 (R161). -/
def execLdDtVx (x : Reg) (s : State) : Answer := .next (s.setDt (s.reg x)).advance

/-- FX18 (R162). -/
def execLdStVx (x : Reg) (s : State) : Answer := .next (s.setSt (s.reg x)).advance

end Sys2Proof.Machine
end

