-- ==== Sys2Proof/Machine/Events.lean ====
section
/-! DEFINITION. The four events of the core (spec 00_scope.md R6): the instruction cycle of `Step`
(10_state.md R40), `Tick` (60_exceptions.md R183), `Reset` (70_reset_and_hazards.md R200) and `Load`
(20_memory.md R66); and which event comes next (00_scope.md R7). -/

namespace Sys2Proof.Machine

/-! ## Step (R40) -/

/-- The end of a `Step`: `KPREV <- keys` unless a fatal condition was raised (R34, R40, R171). -/
def completeStep : Answer → Answer
  | .next t =>
    .next (match t.run with
      | .running => t.recordKeys
      | .halted _ => t)
  | .fault r => .fault r
  | .refused r => .refused r

/-- Fetch, decode and execute one instruction; the first check that fails is the condition raised
(R40, R174). -/
def runInstruction (s : State) : Answer :=
  match s.fetch with
  | none => raise .addressOutOfRange s
  | some w =>
    match decode w with
    | .error _ => raise .invalidOpcode s
    | .ok i => completeStep (exec i s)

/-- The inputs of a `Step` sampled, once, before the instruction executes (R154); the state is no
longer the one `Reset` left (R66). -/
def State.sample (s : State) (keys : Word) (rnd : Byte) : State :=
  { s with keys := keys, rnd := rnd, loadable := false }

/-- `Step(keys, rnd)`: nothing while halted, else one instruction (R40, R172). -/
def stepEvent (keys : Word) (rnd : Byte) (s : State) : Answer :=
  match s.run with
  | .running => runInstruction (s.sample keys rnd)
  | .halted _ => .next s

/-! ## Tick (R183, R184) -/

/-- A timer counts down by 1 and stops at 0 (R183). -/
def countDown (b : Byte) : Byte := if b.toNat > 0 then b - 1 else b

/-- `Tick`: both timers, unless halted (R183, R184). -/
def State.tick (s : State) : State :=
  match s.run with
  | .running => { s with dt := countDown s.dt, st := countDown s.st, loadable := false }
  | .halted _ => s

/-! ## Reset and Load (R200, R66) -/

/-- `Reset(FONT)`: every piece of the core's state, from any prior state; what the host has yet to
issue is not the core's (R200, R203). -/
def State.resetWith (s : State) (font : Config.Font) : State :=
  { State.reset with
    mem := Memory.writeBytes [] 0 font.toList
    schedule := s.schedule
    eventCount := s.eventCount }

/-- `Load(bytes)`: the program at 0x200, or `RomTooLarge` reported and nothing else changed; defined
only in the state `Reset` leaves (R66, R172). -/
def loadEvent (bytes : List Byte) (s : State) : Answer :=
  if s.loadable = true ∧ s.run = .running then
    if bytes.length > Config.progMax then
      .next { s with loadReport := .romTooLarge }
    else
      .next { s with
        mem := s.mem.writeBytes Config.progBase bytes
        loadable := false
        loadReport := .loaded }
  else .refused .loadNotAfterReset

/-! ## The schedule (R7) -/

/-- The host's event number `n` where the listed schedule has run out: a `Step` or a `Tick`, which
and with what inputs left free (R7, R10; log entry 2). -/
def freeEvent (n : Nat) : Event :=
  if Config.freeTick n then .tick else .step (Config.freeKeys n) (Config.freeRnd n)

/-- The event the host issues next. -/
def State.nextEvent (s : State) : Event :=
  match s.schedule with
  | e :: _ => e
  | [] => freeEvent s.eventCount

/-- The state with the next event taken from the host. -/
def State.takeEvent (s : State) : State :=
  match s.schedule with
  | _ :: rest => { s with schedule := rest }
  | [] => { s with eventCount := s.eventCount + 1 }

/-- One event, whole (R6). -/
def performEvent (e : Event) (s : State) : Answer :=
  match e with
  | .reset font => .next (s.resetWith font)
  | .load bytes => loadEvent bytes s
  | .step keys rnd => stepEvent keys rnd s
  | .tick => .next s.tick

/-! ## Placing one instruction for the host's check (log entry 12) -/

/-- The address where `w` can be fetched: `PC`, or the entry point where `PC` is out of range. -/
def State.placeAddr (s : State) : Word := if inRange s.pc.toNat 2 then s.pc else 0x200

/-- The state in which the very next event is a `Step` that fetches `w`: the two bytes at `PC`, high
byte first (R55), and a `Step` with free inputs at the head of the schedule unless one is there. -/
def State.placeWord (s : State) (w : Word) : State :=
  let t := { s with
    mem := s.mem.writeBytes s.placeAddr.toNat [w.extractLsb' 8 8, w.extractLsb' 0 8]
    pc := s.placeAddr
    run := .running }
  match s.schedule with
  | .step _ _ :: _ => t
  | rest =>
    { t with
      schedule := .step (Config.freeKeys s.eventCount) (Config.freeRnd s.eventCount) :: rest
      eventCount := s.eventCount + 1 }

end Sys2Proof.Machine
end

