-- ==== Sys2Proof/Machine/Step.lean ====
section
/-! DEFINITION. One step of the machine is one event of the host (spec 00_scope.md R6). -/

namespace Sys2Proof.Machine

/-- The next event of the schedule, performed (R6, R7). -/
def step (s : State) : Host.Outcome State Fault Refusal := performEvent s.nextEvent s.takeEvent

/-- `s` with the table word stored where the next `Step` fetches, and that `Step` next (log entry
12). -/
def State.withFetchWord (s : State) (nbits w : Nat) : State := s.placeWord (tableWord nbits w)

end Sys2Proof.Machine
end

