-- ==== Sys2Proof/Safety.lean ====
section
/-! DEFINITION. The terms claims about the machine are stated in: the invariant of reachable states
(spec 10_state.md R43), what a Step may change, and the spec's tables of causes and destinations
(60_exceptions.md R173, 10_state.md R22, R41). -/

namespace Sys2Proof.Machine

/-- What holds of every reachable state (R43). `SP ≤ 16` and the ranges of the 8-bit values are in
the types of their fields. -/
def State.inv (s : State) : Prop :=
  s.pc.toNat ≤ 0x10FE ∧ (∀ j : Fin 16, s.stack[j].toNat ≤ 0x1000) ∧ s.mem.wf

/-- A run is safe while no fatal condition has been raised: a halted state is never a successful end
of a program (R172). -/
def State.safe (s : State) : Prop := s.run = .running

/-- Every byte of memory reads as before. -/
def SameBytes (s t : State) : Prop := ∀ a, t.mem.readByte a = s.mem.readByte a

/-- Every byte of memory but the `n` from `base` on reads as before. -/
def SameBytesOutside (base n : Nat) (s t : State) : Prop :=
  ∀ a, (a < base ∨ base + n ≤ a) → t.mem.readByte a = s.mem.readByte a

/-- Nothing but general registers and `PC` differs: `I`, `SP`, the stack, the timers, memory, the
display, `RUN`, `KPREV`, the inputs and the schedule are as before. -/
def OnlyRegsAndPc (s t : State) : Prop := t = { s with v := t.v, pc := t.pc }

/-- Every general register outside `W` is as before. -/
def SameRegsBut (W : List Reg) (s t : State) : Prop := ∀ r : Reg, r ∉ W → t.v[r] = s.v[r]

/-- The condition an instruction raises in a state, if any: the table of R173 and R78 for `0NNN`. -/
def fatalCause (i : Instr) (s : State) : Option Condition :=
  match i with
  | .ret => if s.sp.val = 0 then some .stackUnderflow else none
  | .call _ => if s.sp.val = 16 then some .stackOverflow else none
  | .drw _ _ n =>
    if 1 ≤ n.toNat ∧ s.i.toNat + n.toNat - 1 > 0xFFF then some .addressOutOfRange else none
  | .ldB _ => if s.i.toNat + 2 > 0xFFF then some .addressOutOfRange else none
  | .storeRegs x | .loadRegs x =>
    if s.i.toNat + x.val > 0xFFF then some .addressOutOfRange else none
  | .sys _ => some .invalidOpcode
  | .cls | .jp _ | .seImm _ _ | .sneImm _ _ | .seReg _ _ | .ldImm _ _ | .addImm _ _ | .ldReg _ _
  | .orReg _ _ | .andReg _ _ | .xorReg _ _ | .addReg _ _ | .subReg _ _ | .shr _ _
  | .subnReg _ _ | .shl _ _ | .sneReg _ _ | .ldI _ | .jpV0 _ | .rnd _ _ | .skp _ | .sknp _
  | .ldVxDt _ | .ldDtVx _ | .ldStVx _ | .addI _ | .ldKey _ | .ldF _ => none

/-- The flag-writing instructions: exactly these six patterns write VF as a side effect (R21). -/
def writesFlag : Instr → Bool
  | .addReg _ _ | .subReg _ _ | .shr _ _ | .subnReg _ _ | .shl _ _ | .drw _ _ _ => true
  | .cls | .ret | .jp _ | .call _ | .seImm _ _ | .sneImm _ _ | .seReg _ _ | .ldImm _ _
  | .addImm _ _ | .ldReg _ _ | .orReg _ _ | .andReg _ _ | .xorReg _ _ | .sneReg _ _ | .ldI _
  | .jpV0 _ | .rnd _ _ | .skp _ | .sknp _ | .ldVxDt _ | .ldDtVx _ | .ldStVx _ | .addI _
  | .ldKey _ | .ldF _ | .ldB _ | .storeRegs _ | .loadRegs _ | .sys _ => false

/-- `r` is a destination the instruction names: `V[X]`, or one of `V[0]` to `V[X]` for FX65 (R22). -/
def namesDestination (i : Instr) (r : Reg) : Bool :=
  match i with
  | .ldImm x _ | .addImm x _ | .ldReg x _ | .orReg x _ | .andReg x _ | .xorReg x _ | .addReg x _
  | .subReg x _ | .shr x _ | .subnReg x _ | .shl x _ | .rnd x _ | .ldVxDt x | .ldKey x => r == x
  | .loadRegs x => decide (r.val ≤ x.val)
  | .cls | .ret | .jp _ | .call _ | .seImm _ _ | .sneImm _ _ | .seReg _ _ | .sneReg _ _ | .ldI _
  | .jpV0 _ | .drw _ _ _ | .skp _ | .sknp _ | .ldDtVx _ | .ldStVx _ | .addI _ | .ldF _ | .ldB _
  | .storeRegs _ | .sys _ => false

/-- The bytes an instruction stores: where from and how many (R133, R134). -/
def storedBytes (i : Instr) (s : State) : Nat × Nat :=
  match i with
  | .ldB _ => (s.effAddr 0, 3)
  | .storeRegs x => (s.effAddr 0, x.val + 1)
  | .cls | .ret | .jp _ | .call _ | .seImm _ _ | .sneImm _ _ | .seReg _ _ | .ldImm _ _
  | .addImm _ _ | .ldReg _ _ | .orReg _ _ | .andReg _ _ | .xorReg _ _ | .addReg _ _
  | .subReg _ _ | .shr _ _ | .subnReg _ _ | .shl _ _ | .sneReg _ _ | .ldI _ | .jpV0 _
  | .rnd _ _ | .drw _ _ _ | .skp _ | .sknp _ | .ldVxDt _ | .ldDtVx _ | .ldStVx _ | .addI _
  | .ldKey _ | .ldF _ | .loadRegs _ | .sys _ => (0, 0)

/-- `PC` after an instruction that raises nothing, `a` being its value before: the table of R41. -/
def nextPc (i : Instr) (s : State) : Nat :=
  let a := s.pc.toNat
  match i with
  | .ret => if h : 0 < s.sp.val then (s.stack[s.sp.val - 1]'(Nat.lt_of_lt_of_le
      (Nat.sub_lt h Nat.one_pos) (Nat.le_of_lt_succ s.sp.isLt))).toNat else a
  | .jp nnn | .call nnn => nnn.toNat
  | .jpV0 nnn => nnn.toNat + (s.v[0]).toNat
  | .seImm x nn => if s.v[x] = nn then a + 4 else a + 2
  | .sneImm x nn => if s.v[x] ≠ nn then a + 4 else a + 2
  | .seReg x y => if s.v[x] = s.v[y] then a + 4 else a + 2
  | .sneReg x y => if s.v[x] ≠ s.v[y] then a + 4 else a + 2
  | .skp x => if s.pressed s.v[x] then a + 4 else a + 2
  | .sknp x => if s.pressed s.v[x] then a + 2 else a + 4
  | .ldKey _ => if s.newKeys = 0 then a else a + 2
  | .cls | .ldImm _ _ | .addImm _ _ | .ldReg _ _ | .orReg _ _ | .andReg _ _ | .xorReg _ _
  | .addReg _ _ | .subReg _ _ | .shr _ _ | .subnReg _ _ | .shl _ _ | .ldI _ | .rnd _ _
  | .drw _ _ _ | .ldVxDt _ | .ldDtVx _ | .ldStVx _ | .addI _ | .ldF _ | .ldB _ | .storeRegs _
  | .loadRegs _ => a + 2
  | .sys _ => a

/-- The cell in column `x`, row `y` lies under a 1 bit of a sprite of the given rows whose top left
pixel is at column `x0`, row `y0`, coordinates wrapped (R141 to R143). -/
def underSprite (bytes : List Byte) (x0 y0 x y : Nat) : Bool :=
  (List.range bytes.length).any fun row => (List.range 8).any fun col =>
    (bytes.getD row 0).getLsbD (7 - col) && ((x0 + col) % 64 == x) && ((y0 + row) % 32 == y)

/-- The rows of the sprite an instruction `DXYN` reads: the `N` bytes from `I` on (R141). -/
def State.spriteRows (s : State) (n : Nat) : List Byte :=
  (List.range n).map fun row => s.mem.readByte (s.i.toNat + row)

end Sys2Proof.Machine
end

