-- ==== Sys2Proof/Certificates/Slice0/Obligations.lean ====
section
/-! DEFINITION. The statements for the provers. Where a docstring says "the spec's own decision", the
clause rests on a row of spec/92_eei_decisions.md, not on a sentence of the source. -/

open Sys2Proof Sys2Proof.Machine

/-! ## Encoding (30_encoding.md) -/

/-- Words written out from the spec's worked examples, one for every row of the opcode map (from the
rules of 40_flow.md to 45_timers.md, and 0x8126, 0x812E, 0xD015 and 0x0123 from the vectors of
95_test_vectors.md), decode to the instructions they stand for, and the twelve words its vector T7
lists for nibbles 5, 8, 9, E and F decode to none (the strict decoding is the spec's own decision
D6). -/
def Obligations.SpecExampleWordsDecode : Prop :=
  (∀ p ∈
    [(0x00E0#16, Instr.cls), (0x00EE#16, Instr.ret), (0x1ABC#16, Instr.jp 0xABC),
     (0x2300#16, Instr.call 0x300), (0x332A#16, Instr.seImm 3 0x2A),
     (0x432A#16, Instr.sneImm 3 0x2A), (0x5120#16, Instr.seReg 1 2),
     (0x6A2F#16, Instr.ldImm 0xA 0x2F), (0x7220#16, Instr.addImm 2 0x20),
     (0x8010#16, Instr.ldReg 0 1), (0x8011#16, Instr.orReg 0 1), (0x8012#16, Instr.andReg 0 1)] ++
    [(0x8013#16, Instr.xorReg 0 1), (0x8014#16, Instr.addReg 0 1), (0x8015#16, Instr.subReg 0 1),
     (0x8126#16, Instr.shr 1 2), (0x8017#16, Instr.subnReg 0 1), (0x812E#16, Instr.shl 1 2),
     (0x9120#16, Instr.sneReg 1 2), (0xA2F0#16, Instr.ldI 0x2F0), (0xB300#16, Instr.jpV0 0x300),
     (0xC30F#16, Instr.rnd 3 0x0F), (0xD015#16, Instr.drw 0 1 5), (0xE49E#16, Instr.skp 4)] ++
    [(0xE4A1#16, Instr.sknp 4), (0xF307#16, Instr.ldVxDt 3), (0xF315#16, Instr.ldDtVx 3),
     (0xF318#16, Instr.ldStVx 3), (0xF11E#16, Instr.addI 1), (0xF50A#16, Instr.ldKey 5),
     (0xF229#16, Instr.ldF 2), (0xF033#16, Instr.ldB 0), (0xF255#16, Instr.storeRegs 2),
     (0xF265#16, Instr.loadRegs 2), (0x0123#16, Instr.sys 0x123)],
    decode p.1 = .ok p.2) ∧
  decode 0x5121 = .error .invalidOpcode ∧ decode 0x512F = .error .invalidOpcode ∧
  decode 0x8128 = .error .invalidOpcode ∧ decode 0x812F = .error .invalidOpcode ∧
  decode 0x8129 = .error .invalidOpcode ∧ decode 0x9121 = .error .invalidOpcode ∧
  decode 0xE19F = .error .invalidOpcode ∧ decode 0xE1A0 = .error .invalidOpcode ∧
  decode 0xE000 = .error .invalidOpcode ∧ decode 0xF100 = .error .invalidOpcode ∧
  decode 0xF166 = .error .invalidOpcode ∧ decode 0xF1FF = .error .invalidOpcode

/-- Decoding the opcode of any well-formed instruction, every operand at every value, gives the
instruction back. -/
def Obligations.DecodeOfEncodeIsIdentity : Prop :=
  ∀ i : Instr, i.wellFormed = true → decode (encode i) = .ok i

/-- Every opcode the decoder accepts is the opcode of the well-formed instruction it gives, so each
opcode has one meaning. -/
def Obligations.EncodeOfDecodeIsIdentity : Prop :=
  ∀ (w : Word) (i : Instr), decode w = .ok i → i.wellFormed = true ∧ encode i = w

/-- The 34 rows of the opcode map are pairwise disjoint: no opcode selects two of them. -/
def Obligations.OpcodeRowsAreDisjoint : Prop :=
  opcodeMap.length = 34 ∧
    opcodeMap.Pairwise fun r q => ∀ w : Word, ¬(r.selects w = true ∧ q.selects w = true)

/-- The decoder and the table of masks and matches agree: an opcode selects the row of the
instruction it decodes to, and it decodes to one of the 34 instructions exactly when it selects one
of the 34 rows; `0NNN` is row 35, selected only when no other row is (the row order of
30_encoding.md; the strictness is the spec's own decision D6). -/
def Obligations.DecoderFollowsOpcodeMap : Prop :=
  ∀ w : Word,
    (∀ i, decode w = .ok i → i.row.selects w = true) ∧
    ((∃ i, decode w = .ok i ∧ i.defined = true) ↔ ∃ r ∈ opcodeMap, r.selects w = true) ∧
    (decode w = .error .invalidOpcode ↔
      sysRow.selects w = false ∧ ∀ r ∈ opcodeMap, r.selects w = false)

/-! ## The instruction cycle (10_state.md R40, 20_memory.md R54) -/

/-- The fetch takes the two bytes at `PC` and `PC + 1`, the one at the lower address as the high
byte, at any `PC` up to 0xFFE, odd or even; at 0xFFF and above there is nothing to fetch. -/
def Obligations.FetchReadsTwoBytesHighByteFirst : Prop :=
  ∀ s : State,
    (s.pc.toNat ≤ 0xFFE → ∃ w : Word, s.fetch = some w ∧
      w.toNat = (s.mem.readByte s.pc.toNat).toNat * 256 +
        (s.mem.readByte (s.pc.toNat + 1)).toNat) ∧
    (0xFFF ≤ s.pc.toNat → s.fetch = none)

/-- A step whose event is a `Step` runs the instruction the two bytes at `PC` decode to: it is `exec`
of it on the state in which the event is taken and its inputs are sampled, followed by the recording
of the keys. -/
def Obligations.StepRunsDecodedInstruction : Prop :=
  ∀ (s : State) (keys : Word) (rnd : Byte) (i : Instr),
    s.nextEvent = .step keys rnd → s.run = .running → s.pc.toNat + 1 ≤ 0xFFF →
    i.wellFormed = true →
    decodeBytes [s.mem.readByte s.pc.toNat, s.mem.readByte (s.pc.toNat + 1)] = .ok (i, []) →
    step s = completeStep (exec i (s.takeEvent.sample keys rnd))

/-- A completed `Step` leaves its key sample in `KPREV`, whatever instruction it ran; a `Step` that
raises a fatal condition leaves `KPREV` as it was (the spec's own decisions D8 and D1). -/
def Obligations.CompletedStepRecordsKeys : Prop :=
  ∀ (s t : State) (keys : Word) (rnd : Byte),
    s.nextEvent = .step keys rnd → s.run = .running → step s = .next t →
    (t.run = .running → t.kprev = keys) ∧ (t.run ≠ .running → t.kprev = s.kprev)

/-- A `Step` with `PC` at 0xFFF or above halts with `AddressOutOfRange`; of the machine's state only
`RUN` changes (the spec's own decisions D1 and D3). -/
def Obligations.FetchBeyondMemoryHalts : Prop :=
  ∀ (s : State) (keys : Word) (rnd : Byte),
    s.nextEvent = .step keys rnd → s.run = .running → 0xFFF ≤ s.pc.toNat →
    step s = .next { s.takeEvent.sample keys rnd with run := .halted .addressOutOfRange }

/-- A `Step` that fetches an opcode selecting none of the 34 rows, `0NNN` included, halts with
`InvalidOpcode`; of the machine's state only `RUN` changes, and `PC` stays at the opcode (the
precise halt is the spec's own decision D1). -/
def Obligations.UnrecognizedOpcodeHalts : Prop :=
  ∀ (s : State) (keys : Word) (rnd : Byte) (w : Word),
    s.nextEvent = .step keys rnd → s.run = .running → s.fetch = some w →
    (∀ r ∈ opcodeMap, r.selects w = false) →
    step s = .next { s.takeEvent.sample keys rnd with run := .halted .invalidOpcode }

/-- `PC` after every instruction that raises nothing: the table of R41, for any `PC` a fetch can
succeed at. (R41 is the spec's own derivation.) -/
def Obligations.NextPcOfEveryInstruction : Prop :=
  ∀ (i : Instr) (s t : State),
    s.run = .running → s.pc.toNat ≤ 0xFFE → exec i s = .next t → t.run = .running →
    t.pc.toNat = nextPc i s

/-! ## Fatal conditions and halting (60_exceptions.md) -/

/-- Every instruction answers a next state from every state: none stops the model. A fatal condition
stops the engine, which in the model is a next state with `RUN` halted (the model's reading, log entry
11); that `exec` answers also in a halted state and with `PC` above 0xFFE, where no Step runs an
instruction, is the model's choice (log entry 15). -/
def Obligations.EveryInstructionAnswersNext : Prop :=
  ∀ (i : Instr) (s : State), ∃ t, exec i s = .next t

/-- An instruction raises a fatal condition exactly when the table of R173 says so, the one it says,
and then nothing but `RUN` changes (R173 is the spec's own derivation, the precise halt its decision
D1, the all-or-nothing range check its decision D15). -/
def Obligations.FatalConditionsArePreciseAndExact : Prop :=
  ∀ (i : Instr) (s : State), s.run = .running →
    (∀ c, fatalCause i s = some c → exec i s = .next { s with run := .halted c }) ∧
    (fatalCause i s = none → ∃ t, exec i s = .next t ∧ t.run = .running)

/-- While the core is halted, any number of `Step` and `Tick` events, listed or free, changes nothing
of it: only what the host has yet to issue is used up (the spec's own decision D13). -/
def Obligations.HaltedCoreIsPermanent : Prop :=
  ∀ (n : Nat) (s : State) (c : Condition), s.run = .halted c →
    (∀ e ∈ s.schedule, e = .tick ∨ ∃ keys rnd, e = .step keys rnd) →
    ∃ t, Host.Core.run Sys2Proof.core n s = .next t ∧
      t = { s with schedule := t.schedule, eventCount := t.eventCount }

/-- Only `Reset` leaves the halted state: any other event that is performed on a halted core leaves it
halted with the same condition (the spec's own decision D13). -/
def Obligations.OnlyResetLeavesHalt : Prop :=
  ∀ (s t : State) (c : Condition), s.run = .halted c → step s = .next t →
    t.run = .halted c ∨ ∃ font, s.nextEvent = .reset font

/-- A step refuses exactly a `Load` at any time but in the state `Reset` leaves (refusing it is the
spec's own decision D19; the flag that says when, which a failed `Load` keeps, is the model's, log
entry 10), and it never faults (the model's choice: its type of faults is empty, for a fatal condition
is a next state, log entry 11). -/
def Obligations.StepRefusesOnlyLateLoad : Prop :=
  ∀ s : State,
    (∀ r, step s ≠ .fault r) ∧
    (∀ r, step s = .refused r ↔
      r = .loadNotAfterReset ∧ (∃ bytes, s.nextEvent = .load bytes) ∧
        ¬(s.loadable = true ∧ s.run = .running))

/-! ## Reset, Load, Tick -/

/-- `Reset` with any `FONT`, from any state, halted ones included: every register, timer and stack
slot 0, `PC` 0x200, the display off, memory `FONT` at 0x000 to 0x04F and 0 above, `RUN` running,
`KPREV` 0 (the last three reset values are the spec's own decision D14). -/
def Obligations.ResetEventLeavesResetState : Prop :=
  ∀ (s : State) (font : Config.Font), s.nextEvent = .reset font →
    ∃ t, step s = .next t ∧ (∀ r : Reg, t.v[r] = 0) ∧ t.i = 0 ∧ t.pc = 0x200 ∧ t.sp = 0 ∧
      (∀ j : Fin 16, t.stack[j] = 0) ∧ t.dt = 0 ∧ t.st = 0 ∧
      (∀ k : Fin 80, t.mem.readByte k.val = font[k]) ∧
      (∀ a, 80 ≤ a → t.mem.readByte a = 0) ∧
      (∀ x y, x < 64 → y < 32 → t.disp.cell x y = false) ∧ t.run = .running ∧ t.kprev = 0

/-- The state of the model right after reset is the one `Reset` leaves: the values of R201, with the
recommended font (log entry 1: the choice of that font is the model's). -/
def Obligations.ResetStateHoldsResetValues : Prop :=
  (∀ r : Reg, State.reset.v[r] = 0) ∧ State.reset.i = 0 ∧ State.reset.pc = 0x200 ∧
    State.reset.sp = 0 ∧ (∀ j : Fin 16, State.reset.stack[j] = 0) ∧ State.reset.dt = 0 ∧
    State.reset.st = 0 ∧ State.reset.mem.wf ∧
    (∀ k : Fin 80, State.reset.mem.readByte k.val = Config.recommendedFont[k]) ∧
    (∀ a, 80 ≤ a → State.reset.mem.readByte a = 0) ∧
    (∀ x y, x < 64 → y < 32 → State.reset.disp.cell x y = false) ∧
    State.reset.run = .running ∧ State.reset.kprev = 0 ∧ State.reset.tone = false

/-- `Load` directly after `Reset`: a program of at most 3584 bytes is stored from 0x200 on and no other
byte changes; a longer one is reported as `RomTooLarge` and changes nothing of the machine; and
nothing but memory changes in either case (failing explicitly is the spec's own decision D5; the
report and the flag are the model's, log entries 9 and 10). -/
def Obligations.LoadStoresProgramOrReportsTooLarge : Prop :=
  ∀ (s : State) (bytes : List Byte), s.nextEvent = .load bytes → s.loadable = true →
    s.run = .running → s.mem.wf →
    (bytes.length ≤ 3584 → ∃ t, step s = .next t ∧
      t = { s.takeEvent with mem := t.mem, loadable := false, loadReport := .loaded } ∧
      (∀ k, k < bytes.length → t.mem.readByte (0x200 + k) = bytes.getD k 0) ∧
      SameBytesOutside 0x200 bytes.length s t) ∧
    (3584 < bytes.length → step s = .next { s.takeEvent with loadReport := .romTooLarge })

/-- `Tick` decrements each timer that is above 0 by 1 and leaves one at 0, and changes nothing else;
while halted it changes nothing (the spec's own decision D13). -/
def Obligations.TickCountsTimersDown : Prop :=
  ∀ s : State, s.nextEvent = .tick →
    (s.run = .running → ∃ t, step s = .next t ∧
      t = { s.takeEvent with dt := t.dt, st := t.st, loadable := false } ∧
      t.dt.toNat = s.dt.toNat - 1 ∧ t.st.toNat = s.st.toNat - 1) ∧
    (s.run ≠ .running → step s = .next s.takeEvent)

/-- A timer set to `n` reaches 0 after exactly `n` `Tick` events if nothing else happens, and stays
there: after `k` listed ticks `DT` and `ST` have lost `k`, down to 0. -/
def Obligations.TimersReachZeroAfterTheirTicks : Prop :=
  ∀ (k : Nat) (s : State) (rest : List Event), s.run = .running →
    s.schedule = List.replicate k .tick ++ rest →
    ∃ t, Host.Core.run Sys2Proof.core k s = .next t ∧ t.schedule = rest ∧
      t.dt.toNat = s.dt.toNat - k ∧ t.st.toNat = s.st.toNat - k ∧ t.pc = s.pc ∧ t.v = s.v

/-- Without FX15 `DT` never rises: a step that is a `Tick`, or a `Step` on a state whose next opcode
is not FX15, leaves `DT` at most what it was. (R163 is the spec's own derivation.) -/
def Obligations.DelayTimerNeverRisesWithoutSet : Prop :=
  ∀ (s t : State), step s = .next t →
    (s.nextEvent = .tick ∨ ∃ keys rnd, s.nextEvent = .step keys rnd ∧
      ∀ w x, s.fetch = some w → decode w ≠ .ok (.ldDtVx x)) →
    t.dt.toNat ≤ s.dt.toNat

/-! ## Invariants (10_state.md R43, 20_memory.md) -/

/-- The reset state meets the invariant. -/
def Obligations.ResetStateMeetsInvariant : Prop := State.reset.inv

/-- Every step keeps the invariant: `PC` at most 0x10FE, every stack slot at most 0x1000, memory in its
canonical form and inside the address space. From any state that meets it, whatever the event. -/
def Obligations.EveryStepKeepsInvariant : Prop :=
  ∀ s t : State, s.inv → step s = .next t → t.inv

/-- The canonical form is canonical: two memories in it that read alike at every address are the same
list, so equal memories are equal data. (The form is the model's own, log entry 16.) -/
def Obligations.MemoriesThatReadAlikeAreEqual : Prop :=
  ∀ m m' : Memory, m.wf → m'.wf → (∀ a, m.readByte a = m'.readByte a) → m = m'

/-! ## What instructions leave alone (10_state.md R21 to R29, 20_memory.md R51) -/

/-- Every byte of memory outside those an instruction stores to, at the address its meaning computes,
reads as before: FX33 three bytes from `I`, FX55 `X + 1` bytes from `I`, any other instruction
none. -/
def Obligations.InstructionsStoreOnlyTheirBytes : Prop :=
  ∀ (i : Instr) (s t : State), s.mem.wf → exec i s = .next t →
    SameBytesOutside (storedBytes i s).1 (storedBytes i s).2 s t

/-- A general register an instruction changes is one it names as its destination, or VF of one of the
six flag-writing instructions. -/
def Obligations.OnlyDestinationsAndFlagChange : Prop :=
  ∀ (i : Instr) (s t : State) (r : Reg), exec i s = .next t → t.v[r] ≠ s.v[r] →
    namesDestination i r = true ∨ (r = VF ∧ writesFlag i = true)

/-- The flag a flag-writing instruction leaves in VF is 0 or 1, unless VF is its own destination. -/
def Obligations.FlagIsZeroOrOne : Prop :=
  ∀ (i : Instr) (s t : State), exec i s = .next t → t.run = .running → s.run = .running →
    writesFlag i = true → namesDestination i VF = false → t.v[VF] = 0 ∨ t.v[VF] = 1

/-- Each special register has its writers among the instructions: `I` ANNN, FX1E and FX29 alone, `DT` FX15
alone, `ST` FX18 alone, the display 00E0 and DXYN alone. -/
def Obligations.SpecialRegistersHaveTheirWriters : Prop :=
  ∀ (i : Instr) (s t : State), exec i s = .next t →
    (t.i ≠ s.i → (∃ nnn, i = .ldI nnn) ∨ (∃ x, i = .addI x) ∨ ∃ x, i = .ldF x) ∧
    (t.dt ≠ s.dt → ∃ x, i = .ldDtVx x) ∧
    (t.st ≠ s.st → ∃ x, i = .ldStVx x) ∧
    (t.disp ≠ s.disp → i = .cls ∨ ∃ x y n, i = .drw x y n)

/-- `SP` is changed by 2NNN and 00EE alone, and a stack slot by 2NNN alone: a pop does not clear the
slot. -/
def Obligations.OnlyCallAndReturnTouchStack : Prop :=
  ∀ (i : Instr) (s t : State), exec i s = .next t →
    (t.sp ≠ s.sp → i = .ret ∨ ∃ nnn, i = .call nnn) ∧
    (t.stack ≠ s.stack → ∃ nnn, i = .call nnn)

/-- No instruction itself changes `KPREV`, the sampled inputs, the schedule or the host's reports. -/
def Obligations.InstructionsLeaveInputsAlone : Prop :=
  ∀ (i : Instr) (s t : State), exec i s = .next t →
    t.kprev = s.kprev ∧ t.keys = s.keys ∧ t.rnd = s.rnd ∧ t.schedule = s.schedule ∧
      t.eventCount = s.eventCount ∧ t.loadable = s.loadable ∧ t.loadReport = s.loadReport

/-- An instruction other than CXNN ignores the random byte: two runs that differ only in it differ only
in it afterwards. -/
def Obligations.OnlyRandomInstructionReadsRandomByte : Prop :=
  ∀ (i : Instr) (s t : State) (r : Byte), (∀ x nn, i ≠ .rnd x nn) → exec i s = .next t →
    exec i { s with rnd := r } = .next { t with rnd := r }

/-- An instruction other than EX9E, EXA1 and FX0A ignores the keypad: two runs that differ only in the
samples differ only in them afterwards. -/
def Obligations.OnlyKeypadInstructionsReadKeys : Prop :=
  ∀ (i : Instr) (s t : State) (keys kprev : Word),
    (∀ x, i ≠ .skp x ∧ i ≠ .sknp x ∧ i ≠ .ldKey x) → exec i s = .next t →
    exec i { s with keys := keys, kprev := kprev } =
      .next { t with keys := keys, kprev := kprev }

/-! ## Control transfer (40_flow.md) -/

/-- 1NNN: `PC` is the 12-bit immediate, and nothing else changes; any target is accepted, an odd one
too, and 0xFFF only makes the next fetch fail. -/
def Obligations.JumpSetsPc : Prop :=
  ∀ (nnn : BitVec 12) (s : State), ∃ t, exec (.jp nnn) s = .next t ∧
    t.pc.toNat = nnn.toNat ∧ t = { s with pc := t.pc } ∧ (t.fetch = none ↔ nnn = 0xFFF)

/-- BNNN: `PC` is the exact sum of the immediate and `V[0]`, neither wrapped nor masked, and nothing
else changes (not masking is the spec's own decision D3). -/
def Obligations.OffsetJumpAddsRegisterZero : Prop :=
  ∀ (nnn : BitVec 12) (s : State), ∃ t, exec (.jpV0 nnn) s = .next t ∧
    t.pc.toNat = nnn.toNat + (s.v[0]).toNat ∧ t = { s with pc := t.pc }

/-- 2NNN with room on the stack: the address of the next instruction goes into the slot `SP` points
at, `SP` rises by 1, `PC` is the immediate, and nothing else changes, no other slot either. With a
full stack: `StackOverflow`, nothing else changed (the precise halt is the spec's own decision
D1). -/
def Obligations.CallPushesReturnAddress : Prop :=
  ∀ (nnn : BitVec 12) (s : State),
    (s.sp.val < 16 → ∃ t, exec (.call nnn) s = .next t ∧
      t = { s with stack := t.stack, sp := t.sp, pc := t.pc } ∧ t.sp.val = s.sp.val + 1 ∧
      t.pc.toNat = nnn.toNat ∧
      ∀ j : Fin 16, t.stack[j] = if j.val = s.sp.val then s.pc + 2 else s.stack[j]) ∧
    (s.sp.val = 16 → exec (.call nnn) s = .next { s with run := .halted .stackOverflow })

/-- 00EE with a return address on the stack: `SP` falls by 1, `PC` is the slot it now points at, and
nothing else changes, the popped slot neither. With an empty stack: `StackUnderflow`, nothing else
changed (the precise halt is the spec's own decision D1). -/
def Obligations.ReturnPopsAddress : Prop :=
  ∀ s : State,
    (∀ j : Fin 16, s.sp.val = j.val + 1 → ∃ t, exec .ret s = .next t ∧
      t = { s with sp := t.sp, pc := t.pc } ∧ t.sp.val = j.val ∧ t.pc = s.stack[j]) ∧
    (s.sp.val = 0 → exec .ret s = .next { s with run := .halted .stackUnderflow })

/-- A call and, later, a return in any state in which `SP` is where the call left it and the slot the
call wrote still holds what it wrote, whatever nested calls have left in the slots above and whatever
else has changed: `PC` is the instruction after the call and `SP` is what it was. (R109 is the spec's
own derivation.) -/
def Obligations.CallThenReturnComesBack : Prop :=
  ∀ (nnn : BitVec 12) (s s₁ s₂ : State), s.run = .running → exec (.call nnn) s = .next s₁ →
    s₁.run = .running → s₂.sp = s₁.sp →
    (∀ j : Fin 16, j.val = s.sp.val → s₂.stack[j] = s₁.stack[j]) →
    ∃ t, exec .ret s₂ = .next t ∧ t.pc = s.pc + 2 ∧ t.sp = s.sp

/-- 3XNN, 4XNN, 5XY0, 9XY0: `PC` rises by 4 when the condition holds and by 2 when it does not, and
nothing else changes. -/
def Obligations.SkipsCompareRegisters : Prop :=
  ∀ (x y : Reg) (nn : Byte) (s : State),
    exec (.seImm x nn) s = .next { s with pc := s.pc + if s.v[x] = nn then 4 else 2 } ∧
    exec (.sneImm x nn) s = .next { s with pc := s.pc + if s.v[x] = nn then 2 else 4 } ∧
    exec (.seReg x y) s = .next { s with pc := s.pc + if s.v[x] = s.v[y] then 4 else 2 } ∧
    exec (.sneReg x y) s = .next { s with pc := s.pc + if s.v[x] = s.v[y] then 2 else 4 }

/-- 0NNN: executing it raises `InvalidOpcode`, and nothing else changes. -/
def Obligations.MachineRoutineCallIsInvalid : Prop :=
  ∀ (nnn : BitVec 12) (s : State),
    exec (.sys nnn) s = .next { s with run := .halted .invalidOpcode }

/-! ## Registers, arithmetic, logic (41_alu.md) -/

/-- 6XNN, 7XNN, 8XY0, 8XY1, 8XY2, 8XY3: the value `V[X]` gets, for every `X` and `Y`; no other register
changes (VF only as `V[X]`), nothing else changes, `PC` rises by 2. -/
def Obligations.LoadsAndLogicWriteOneRegister : Prop :=
  ∀ (x y : Reg) (nn : Byte) (s : State),
    (∃ t, exec (.ldImm x nn) s = .next t ∧ OnlyRegsAndPc s t ∧ SameRegsBut [x] s t ∧
      t.pc = s.pc + 2 ∧ t.v[x] = nn) ∧
    (∃ t, exec (.addImm x nn) s = .next t ∧ OnlyRegsAndPc s t ∧ SameRegsBut [x] s t ∧
      t.pc = s.pc + 2 ∧ (t.v[x]).toNat = ((s.v[x]).toNat + nn.toNat) % 256) ∧
    (∃ t, exec (.ldReg x y) s = .next t ∧ OnlyRegsAndPc s t ∧ SameRegsBut [x] s t ∧
      t.pc = s.pc + 2 ∧ t.v[x] = s.v[y]) ∧
    (∃ t, exec (.orReg x y) s = .next t ∧ OnlyRegsAndPc s t ∧ SameRegsBut [x] s t ∧
      t.pc = s.pc + 2 ∧ t.v[x] = s.v[x] ||| s.v[y]) ∧
    (∃ t, exec (.andReg x y) s = .next t ∧ OnlyRegsAndPc s t ∧ SameRegsBut [x] s t ∧
      t.pc = s.pc + 2 ∧ t.v[x] = s.v[x] &&& s.v[y]) ∧
    (∃ t, exec (.xorReg x y) s = .next t ∧ OnlyRegsAndPc s t ∧ SameRegsBut [x] s t ∧
      t.pc = s.pc + 2 ∧ t.v[x] = s.v[x] ^^^ s.v[y])

/-- 8XY4: `V[X]` is the sum modulo 256 and, where `X` is not F, VF is 1 exactly when the sum exceeds
255, so that the two together are the exact sum; with `X` = F the result stays in VF and the carry is
lost, with `Y` = F the old VF is the addend (both the spec's own decision D7). -/
def Obligations.AddGivesSumAndCarry : Prop :=
  ∀ (x y : Reg) (s : State), ∃ t, exec (.addReg x y) s = .next t ∧ OnlyRegsAndPc s t ∧
    SameRegsBut [x, VF] s t ∧ t.pc = s.pc + 2 ∧
    (t.v[x]).toNat = ((s.v[x]).toNat + (s.v[y]).toNat) % 256 ∧
    (x ≠ VF → t.v[VF] = (if (s.v[x]).toNat + (s.v[y]).toNat > 255 then 1 else 0) ∧
      256 * (t.v[VF]).toNat + (t.v[x]).toNat = (s.v[x]).toNat + (s.v[y]).toNat)

/-- 8XY5: `V[X]` is the difference modulo 256 and, where `X` is not F, VF is 1 exactly when `V[X]` was
strictly greater, so 0 for equal operands; with `X` = F the difference stays in VF, with `Y` = F the
old VF is the subtrahend (both the spec's own decision D7). -/
def Obligations.SubtractGivesDifferenceAndStrictFlag : Prop :=
  ∀ (x y : Reg) (s : State), ∃ t, exec (.subReg x y) s = .next t ∧ OnlyRegsAndPc s t ∧
    SameRegsBut [x, VF] s t ∧ t.pc = s.pc + 2 ∧
    ((t.v[x]).toNat : Int) = (((s.v[x]).toNat : Int) - (s.v[y]).toNat) % 256 ∧
    (x ≠ VF → t.v[VF] = if (s.v[x]).toNat > (s.v[y]).toNat then 1 else 0)

/-- 8XY7: `V[X]` is `V[Y] - V[X]` modulo 256 and, where `X` is not F, VF is 1 exactly when `V[Y]` was
strictly greater; `X` or `Y` = F as in 8XY5 (the spec's own decision D7). -/
def Obligations.ReverseSubtractGivesDifferenceAndStrictFlag : Prop :=
  ∀ (x y : Reg) (s : State), ∃ t, exec (.subnReg x y) s = .next t ∧ OnlyRegsAndPc s t ∧
    SameRegsBut [x, VF] s t ∧ t.pc = s.pc + 2 ∧
    ((t.v[x]).toNat : Int) = (((s.v[y]).toNat : Int) - (s.v[x]).toNat) % 256 ∧
    (x ≠ VF → t.v[VF] = if (s.v[y]).toNat > (s.v[x]).toNat then 1 else 0)

/-- 8XY6 and 8XYE: `V[X]` is half, or twice modulo 256, the old `V[X]` whatever `Y` is; where `X` is not
F, VF is the bit shifted out, so that nothing of the old value is lost; with `X` = F the shifted value
stays in VF (the spec's own decision D7). -/
def Obligations.ShiftsMoveOneBitIntoFlag : Prop :=
  ∀ (x y : Reg) (s : State),
    (∃ t, exec (.shr x y) s = .next t ∧ OnlyRegsAndPc s t ∧ SameRegsBut [x, VF] s t ∧
      t.pc = s.pc + 2 ∧ (t.v[x]).toNat = (s.v[x]).toNat / 2 ∧
      (x ≠ VF → (t.v[VF]).toNat = (s.v[x]).toNat % 2 ∧
        2 * (t.v[x]).toNat + (t.v[VF]).toNat = (s.v[x]).toNat)) ∧
    (∃ t, exec (.shl x y) s = .next t ∧ OnlyRegsAndPc s t ∧ SameRegsBut [x, VF] s t ∧
      t.pc = s.pc + 2 ∧ (t.v[x]).toNat = (s.v[x]).toNat * 2 % 256 ∧
      (x ≠ VF → (t.v[VF]).toNat = (s.v[x]).toNat / 128 ∧
        256 * (t.v[VF]).toNat + (t.v[x]).toNat = 2 * (s.v[x]).toNat))

/-- CXNN: `V[X]` is the random byte of this `Step` with only the bits `NN` has, whatever that byte is;
nothing else changes (that the byte is free is the spec's own decision D16). -/
def Obligations.RandomIsMasked : Prop :=
  ∀ (x : Reg) (nn : Byte) (s : State), ∃ t, exec (.rnd x nn) s = .next t ∧ OnlyRegsAndPc s t ∧
    SameRegsBut [x] s t ∧ t.pc = s.pc + 2 ∧
    ∀ b, b < 8 → (t.v[x]).getLsbD b = (s.rnd.getLsbD b && nn.getLsbD b)

/-! ## Index register and memory (42_index_memory.md) -/

/-- ANNN and FX29: the value `I` gets, exact and zero-extended; `PC` rises by 2 and nothing else
changes. -/
def Obligations.IndexLoadsAreExact : Prop :=
  ∀ (nnn : BitVec 12) (x : Reg) (s : State),
    (∃ t, exec (.ldI nnn) s = .next t ∧ t = { s with i := t.i, pc := s.pc + 2 } ∧
      t.i.toNat = nnn.toNat) ∧
    (∃ t, exec (.ldF x) s = .next t ∧ t = { s with i := t.i, pc := s.pc + 2 } ∧
      t.i.toNat = (s.v[x]).toNat * 5)

/-- FX1E: `I` is the sum modulo 65536, not masked to 12 bits; no flag, no fault, `PC` rises by 2 and
nothing else changes (the register's width is the spec's own decision D2, the absence of a check its
decision D3). -/
def Obligations.IndexAddWrapsAtSixteenBits : Prop :=
  ∀ (x : Reg) (s : State), ∃ t, exec (.addI x) s = .next t ∧
    t = { s with i := t.i, pc := s.pc + 2 } ∧
    t.i.toNat = (s.i.toNat + (s.v[x]).toNat) % 65536

/-- FX33 with its three bytes in memory: they hold the decimal digits of `V[X]`, hundreds first, and
make it up; every other byte and everything but `PC` is unchanged. With `I` above 0xFFD:
`AddressOutOfRange` and no byte written (the spec's own decisions D1 and D15). -/
def Obligations.DecimalDigitsAreStored : Prop :=
  ∀ (x : Reg) (s : State), s.mem.wf →
    (s.i.toNat ≤ 0xFFD → ∃ t, exec (.ldB x) s = .next t ∧
      t = { s with mem := t.mem, pc := s.pc + 2 } ∧
      (t.mem.readByte (s.effAddr 0)).toNat = (s.v[x]).toNat / 100 ∧
      (t.mem.readByte (s.effAddr 1)).toNat = (s.v[x]).toNat / 10 % 10 ∧
      (t.mem.readByte (s.effAddr 2)).toNat = (s.v[x]).toNat % 10 ∧
      SameBytesOutside (s.effAddr 0) 3 s t) ∧
    (0xFFD < s.i.toNat → exec (.ldB x) s = .next { s with run := .halted .addressOutOfRange })

/-- FX55 with its `X + 1` bytes in memory: byte `I + k` holds `V[k]`; every other byte and everything
but `PC` is unchanged, `I` included. With the range past 0xFFF: `AddressOutOfRange` and no byte
written (the spec's own decisions D1 and D15). -/
def Obligations.RegistersAreStoredAscending : Prop :=
  ∀ (x : Reg) (s : State), s.mem.wf →
    (s.i.toNat + x.val ≤ 0xFFF → ∃ t, exec (.storeRegs x) s = .next t ∧
      t = { s with mem := t.mem, pc := s.pc + 2 } ∧
      (∀ k : Reg, k ≤ x → t.mem.readByte (s.effAddr k.val) = s.v[k]) ∧
      SameBytesOutside (s.effAddr 0) (x.val + 1) s t) ∧
    (0xFFF < s.i.toNat + x.val →
      exec (.storeRegs x) s = .next { s with run := .halted .addressOutOfRange })

/-- FX65 with its `X + 1` bytes in memory: `V[k]` holds byte `I + k`; registers above `V[X]` and
everything else but `PC` are unchanged, `I` and memory included. With the range past 0xFFF:
`AddressOutOfRange` and no register written (the spec's own decisions D1 and D15). -/
def Obligations.RegistersAreLoadedAscending : Prop :=
  ∀ (x : Reg) (s : State),
    (s.i.toNat + x.val ≤ 0xFFF → ∃ t, exec (.loadRegs x) s = .next t ∧ OnlyRegsAndPc s t ∧
      t.pc = s.pc + 2 ∧
      ∀ k : Reg, t.v[k] = if k ≤ x then s.mem.readByte (s.effAddr k.val) else s.v[k]) ∧
    (0xFFF < s.i.toNat + x.val →
      exec (.loadRegs x) s = .next { s with run := .halted .addressOutOfRange })

/-- FX55 and later FX65 with the same `X` and `I` bring the stored registers back, whatever the
registers held in between. -/
def Obligations.StoreThenLoadRestoresRegisters : Prop :=
  ∀ (x : Reg) (s t u : State), s.mem.wf → s.i.toNat + x.val ≤ 0xFFF →
    exec (.storeRegs x) s = .next t → u.mem = t.mem → u.i = s.i →
    ∃ w, exec (.loadRegs x) u = .next w ∧ ∀ k : Reg, k ≤ x → w.v[k] = s.v[k]

/-- A store is seen by the very next fetch: after FX55, whatever `X` and wherever its block lies, and
after FX33, each of the two bytes fetched from the next `PC` is the stored one where the block covers
its address and the old one where it does not. (R64 is the spec's own derivation.) -/
def Obligations.StoreIsSeenByNextFetch : Prop :=
  ∀ (x : Reg) (s : State), s.mem.wf → s.pc.toNat ≤ 0xFFC →
    (s.i.toNat + x.val ≤ 0xFFF → ∃ t hi lo, exec (.storeRegs x) s = .next t ∧
      t.fetch = some (wordOfBytes hi lo) ∧
      (∀ k : Reg, k ≤ x → s.effAddr k.val = s.pc.toNat + 2 → hi = s.v[k]) ∧
      (∀ k : Reg, k ≤ x → s.effAddr k.val = s.pc.toNat + 3 → lo = s.v[k]) ∧
      ((∀ k : Reg, k ≤ x → s.effAddr k.val ≠ s.pc.toNat + 2) →
        hi = s.mem.readByte (s.pc.toNat + 2)) ∧
      ((∀ k : Reg, k ≤ x → s.effAddr k.val ≠ s.pc.toNat + 3) →
        lo = s.mem.readByte (s.pc.toNat + 3))) ∧
    (s.i.toNat ≤ 0xFFD → ∃ t hi lo, exec (.ldB x) s = .next t ∧
      t.fetch = some (wordOfBytes hi lo) ∧
      (∀ k, k < 3 → s.effAddr k = s.pc.toNat + 2 →
        hi.toNat = (s.v[x]).toNat / 10 ^ (2 - k) % 10) ∧
      (∀ k, k < 3 → s.effAddr k = s.pc.toNat + 3 →
        lo.toNat = (s.v[x]).toNat / 10 ^ (2 - k) % 10) ∧
      ((∀ k, k < 3 → s.effAddr k ≠ s.pc.toNat + 2) → hi = s.mem.readByte (s.pc.toNat + 2)) ∧
      ((∀ k, k < 3 → s.effAddr k ≠ s.pc.toNat + 3) → lo = s.mem.readByte (s.pc.toNat + 3)))

/-! ## Display (43_display.md) -/

/-- 00E0: every cell off; `PC` rises by 2 and nothing else changes, VF neither. -/
def Obligations.ClearTurnsEveryCellOff : Prop :=
  ∀ s : State, ∃ t, exec .cls s = .next t ∧ t = { s with disp := t.disp, pc := s.pc + 2 } ∧
    ∀ x y, x < 64 → y < 32 → t.disp.cell x y = false

/-- DXYN with its rows in memory (or with `N` = 0, which reads none): every cell under a 1 bit of the
sprite is turned over, coordinates wrapped, and no other cell changes; VF is 1 exactly when some cell
that was on lies under a 1 bit; coordinates are the old `V[X]` and `V[Y]` even when one is VF; nothing
else changes (bit 7 as the leftmost pixel is the spec's own decision D10, the old VF as coordinate its
decision D7). -/
def Obligations.DrawExclusiveOrsSpriteAndReportsCollision : Prop :=
  ∀ (x y : Reg) (n : BitVec 4) (s : State),
    (n = 0 ∨ s.i.toNat + n.toNat ≤ 0x1000) →
    ∃ t, exec (.drw x y n) s = .next t ∧
      t = { s with v := t.v, disp := t.disp, pc := s.pc + 2 } ∧ SameRegsBut [VF] s t ∧
      (∀ cx cy, cx < 64 → cy < 32 → t.disp.cell cx cy = (s.disp.cell cx cy ^^
        underSprite (s.spriteRows n.toNat) (s.v[x]).toNat (s.v[y]).toNat cx cy)) ∧
      ((∃ cx cy, cx < 64 ∧ cy < 32 ∧ s.disp.cell cx cy = true ∧
          underSprite (s.spriteRows n.toNat) (s.v[x]).toNat (s.v[y]).toNat cx cy = true) →
        t.v[VF] = 1) ∧
      ((∀ cx cy, cx < 64 → cy < 32 → s.disp.cell cx cy = true →
          underSprite (s.spriteRows n.toNat) (s.v[x]).toNat (s.v[y]).toNat cx cy = false) →
        t.v[VF] = 0)

/-- Drawing the same sprite at the same place twice restores the display. On an empty display the
first draw leaves VF 0 and the second sets it exactly when the sprite has a 1 bit; in general the
second sets it exactly when some cell under a 1 bit was off before the first (log entry 19). `X` and
`Y` are not VF, for then the first draw would move the second. (R144 is the spec's own
derivation.) -/
def Obligations.DrawingTwiceRestoresDisplay : Prop :=
  ∀ (x y : Reg) (n : BitVec 4) (s t u : State), x ≠ VF → y ≠ VF →
    (n = 0 ∨ s.i.toNat + n.toNat ≤ 0x1000) →
    exec (.drw x y n) s = .next t → exec (.drw x y n) t = .next u →
    u.disp = s.disp ∧
    (s.disp = blankDisplay → t.v[VF] = 0 ∧
      u.v[VF] = if ∃ b ∈ s.spriteRows n.toNat, b ≠ 0 then 1 else 0) ∧
    ((∃ cx cy, cx < 64 ∧ cy < 32 ∧ s.disp.cell cx cy = false ∧
        underSprite (s.spriteRows n.toNat) (s.v[x]).toNat (s.v[y]).toNat cx cy = true) →
      u.v[VF] = 1) ∧
    ((∀ cx cy, cx < 64 → cy < 32 → s.disp.cell cx cy = false →
        underSprite (s.spriteRows n.toNat) (s.v[x]).toNat (s.v[y]).toNat cx cy = false) →
      u.v[VF] = 0)

/-! ## Keypad (44_input.md) -/

/-- EX9E and EXA1: `PC` rises by 4 or by 2 as the key whose code is in `V[X]` is down in this `Step`'s
sample or not; a code of 16 or more is never down (the spec's own decision D11); nothing else
changes. -/
def Obligations.KeySkipsTestSample : Prop :=
  ∀ (x : Reg) (s : State) (down : Bool),
    down = (decide ((s.v[x]).toNat ≤ 15) && s.keys.getLsbD (s.v[x]).toNat) →
    exec (.skp x) s = .next { s with pc := s.pc + if down then 4 else 2 } ∧
    exec (.sknp x) s = .next { s with pc := s.pc + if down then 2 else 4 }

/-- FX0A when key `k` is down now, was up in the previous sample, and no smaller key is so: `V[X]` gets
`k`, `PC` rises by 2, nothing else changes (the mechanism and the lowest code are the spec's own
decisions D8 and D9). -/
def Obligations.KeyWaitTakesLowestNewKey : Prop :=
  ∀ (x : Reg) (s : State) (k : Fin 16),
    s.keys.getLsbD k.val = true → s.kprev.getLsbD k.val = false →
    (∀ j : Fin 16, j < k → s.keys.getLsbD j.val = true → s.kprev.getLsbD j.val = true) →
    ∃ t, exec (.ldKey x) s = .next t ∧ OnlyRegsAndPc s t ∧ SameRegsBut [x] s t ∧
      t.pc = s.pc + 2 ∧ (t.v[x]).toNat = k.val

/-- FX0A while every key that is down was already down in the previous sample: nothing changes, and
`PC` stays at the instruction, which the next `Step` executes again (the spec's own decision D8). -/
def Obligations.KeyWaitStaysWithoutNewKey : Prop :=
  ∀ (x : Reg) (s : State),
    (∀ k : Fin 16, s.keys.getLsbD k.val = true → s.kprev.getLsbD k.val = true) →
    exec (.ldKey x) s = .next s

/-! ## Timer instructions (45_timers.md) -/

/-- FX07, FX15, FX18: the delay timer into `V[X]`, `V[X]` into the delay timer, `V[X]` into the sound
timer, with the tone on exactly when it is above 0; `PC` rises by 2 and nothing else changes. -/
def Obligations.TimerInstructionsCopyBytes : Prop :=
  ∀ (x : Reg) (s : State),
    (∃ t, exec (.ldVxDt x) s = .next t ∧ OnlyRegsAndPc s t ∧ SameRegsBut [x] s t ∧
      t.pc = s.pc + 2 ∧ t.v[x] = s.dt) ∧
    exec (.ldDtVx x) s = .next { s with dt := s.v[x], pc := s.pc + 2 } ∧
    (∃ t, exec (.ldStVx x) s = .next t ∧ t = { s with st := s.v[x], pc := s.pc + 2 } ∧
      (t.tone = true ↔ s.v[x] ≠ 0))
end

