-- ==== Sys2Proof/Laws/State.lean ====
section
/-! SUPPORT. For every update of the state, what each field holds after it. All are true by unfolding,
so that no later proof unfolds a record update. -/

namespace Sys2Proof.Machine

variable (s : State)

/-! ### `setV` -/

@[simp] theorem State.setV_v (x : Reg) (b : Byte) : (s.setV x b).v = s.v.set x b := rfl
@[simp] theorem State.setV_i (x : Reg) (b : Byte) : (s.setV x b).i = s.i := rfl
@[simp] theorem State.setV_pc (x : Reg) (b : Byte) : (s.setV x b).pc = s.pc := rfl
@[simp] theorem State.setV_sp (x : Reg) (b : Byte) : (s.setV x b).sp = s.sp := rfl
@[simp] theorem State.setV_stack (x : Reg) (b : Byte) : (s.setV x b).stack = s.stack := rfl
@[simp] theorem State.setV_dt (x : Reg) (b : Byte) : (s.setV x b).dt = s.dt := rfl
@[simp] theorem State.setV_st (x : Reg) (b : Byte) : (s.setV x b).st = s.st := rfl
@[simp] theorem State.setV_mem (x : Reg) (b : Byte) : (s.setV x b).mem = s.mem := rfl
@[simp] theorem State.setV_disp (x : Reg) (b : Byte) : (s.setV x b).disp = s.disp := rfl
@[simp] theorem State.setV_run (x : Reg) (b : Byte) : (s.setV x b).run = s.run := rfl
@[simp] theorem State.setV_kprev (x : Reg) (b : Byte) : (s.setV x b).kprev = s.kprev := rfl
@[simp] theorem State.setV_keys (x : Reg) (b : Byte) : (s.setV x b).keys = s.keys := rfl
@[simp] theorem State.setV_rnd (x : Reg) (b : Byte) : (s.setV x b).rnd = s.rnd := rfl
@[simp] theorem State.setV_schedule (x : Reg) (b : Byte) : (s.setV x b).schedule = s.schedule := rfl
@[simp] theorem State.setV_eventCount (x : Reg) (b : Byte) :
    (s.setV x b).eventCount = s.eventCount := rfl
@[simp] theorem State.setV_loadable (x : Reg) (b : Byte) : (s.setV x b).loadable = s.loadable := rfl
@[simp] theorem State.setV_loadReport (x : Reg) (b : Byte) :
    (s.setV x b).loadReport = s.loadReport := rfl
@[simp] theorem State.setV_npc (x : Reg) (b : Byte) : (s.setV x b).npc = s.npc := rfl

/-! ### `setI` -/

@[simp] theorem State.setI_v (w : Word) : (s.setI w).v = s.v := rfl
@[simp] theorem State.setI_i (w : Word) : (s.setI w).i = w := rfl
@[simp] theorem State.setI_pc (w : Word) : (s.setI w).pc = s.pc := rfl
@[simp] theorem State.setI_sp (w : Word) : (s.setI w).sp = s.sp := rfl
@[simp] theorem State.setI_stack (w : Word) : (s.setI w).stack = s.stack := rfl
@[simp] theorem State.setI_dt (w : Word) : (s.setI w).dt = s.dt := rfl
@[simp] theorem State.setI_st (w : Word) : (s.setI w).st = s.st := rfl
@[simp] theorem State.setI_mem (w : Word) : (s.setI w).mem = s.mem := rfl
@[simp] theorem State.setI_disp (w : Word) : (s.setI w).disp = s.disp := rfl
@[simp] theorem State.setI_run (w : Word) : (s.setI w).run = s.run := rfl
@[simp] theorem State.setI_kprev (w : Word) : (s.setI w).kprev = s.kprev := rfl
@[simp] theorem State.setI_keys (w : Word) : (s.setI w).keys = s.keys := rfl
@[simp] theorem State.setI_rnd (w : Word) : (s.setI w).rnd = s.rnd := rfl
@[simp] theorem State.setI_schedule (w : Word) : (s.setI w).schedule = s.schedule := rfl
@[simp] theorem State.setI_eventCount (w : Word) : (s.setI w).eventCount = s.eventCount := rfl
@[simp] theorem State.setI_loadable (w : Word) : (s.setI w).loadable = s.loadable := rfl
@[simp] theorem State.setI_loadReport (w : Word) : (s.setI w).loadReport = s.loadReport := rfl
@[simp] theorem State.setI_npc (w : Word) : (s.setI w).npc = s.npc := rfl

/-! ### `setPc` -/

@[simp] theorem State.setPc_v (w : Word) : (s.setPc w).v = s.v := rfl
@[simp] theorem State.setPc_i (w : Word) : (s.setPc w).i = s.i := rfl
@[simp] theorem State.setPc_pc (w : Word) : (s.setPc w).pc = w := rfl
@[simp] theorem State.setPc_sp (w : Word) : (s.setPc w).sp = s.sp := rfl
@[simp] theorem State.setPc_stack (w : Word) : (s.setPc w).stack = s.stack := rfl
@[simp] theorem State.setPc_dt (w : Word) : (s.setPc w).dt = s.dt := rfl
@[simp] theorem State.setPc_st (w : Word) : (s.setPc w).st = s.st := rfl
@[simp] theorem State.setPc_mem (w : Word) : (s.setPc w).mem = s.mem := rfl
@[simp] theorem State.setPc_disp (w : Word) : (s.setPc w).disp = s.disp := rfl
@[simp] theorem State.setPc_run (w : Word) : (s.setPc w).run = s.run := rfl
@[simp] theorem State.setPc_kprev (w : Word) : (s.setPc w).kprev = s.kprev := rfl
@[simp] theorem State.setPc_keys (w : Word) : (s.setPc w).keys = s.keys := rfl
@[simp] theorem State.setPc_rnd (w : Word) : (s.setPc w).rnd = s.rnd := rfl
@[simp] theorem State.setPc_schedule (w : Word) : (s.setPc w).schedule = s.schedule := rfl
@[simp] theorem State.setPc_eventCount (w : Word) : (s.setPc w).eventCount = s.eventCount := rfl
@[simp] theorem State.setPc_loadable (w : Word) : (s.setPc w).loadable = s.loadable := rfl
@[simp] theorem State.setPc_loadReport (w : Word) : (s.setPc w).loadReport = s.loadReport := rfl

/-! ### `setDt` -/

@[simp] theorem State.setDt_v (b : Byte) : (s.setDt b).v = s.v := rfl
@[simp] theorem State.setDt_i (b : Byte) : (s.setDt b).i = s.i := rfl
@[simp] theorem State.setDt_pc (b : Byte) : (s.setDt b).pc = s.pc := rfl
@[simp] theorem State.setDt_sp (b : Byte) : (s.setDt b).sp = s.sp := rfl
@[simp] theorem State.setDt_stack (b : Byte) : (s.setDt b).stack = s.stack := rfl
@[simp] theorem State.setDt_dt (b : Byte) : (s.setDt b).dt = b := rfl
@[simp] theorem State.setDt_st (b : Byte) : (s.setDt b).st = s.st := rfl
@[simp] theorem State.setDt_mem (b : Byte) : (s.setDt b).mem = s.mem := rfl
@[simp] theorem State.setDt_disp (b : Byte) : (s.setDt b).disp = s.disp := rfl
@[simp] theorem State.setDt_run (b : Byte) : (s.setDt b).run = s.run := rfl
@[simp] theorem State.setDt_kprev (b : Byte) : (s.setDt b).kprev = s.kprev := rfl
@[simp] theorem State.setDt_keys (b : Byte) : (s.setDt b).keys = s.keys := rfl
@[simp] theorem State.setDt_rnd (b : Byte) : (s.setDt b).rnd = s.rnd := rfl
@[simp] theorem State.setDt_schedule (b : Byte) : (s.setDt b).schedule = s.schedule := rfl
@[simp] theorem State.setDt_eventCount (b : Byte) : (s.setDt b).eventCount = s.eventCount := rfl
@[simp] theorem State.setDt_loadable (b : Byte) : (s.setDt b).loadable = s.loadable := rfl
@[simp] theorem State.setDt_loadReport (b : Byte) : (s.setDt b).loadReport = s.loadReport := rfl
@[simp] theorem State.setDt_npc (b : Byte) : (s.setDt b).npc = s.npc := rfl

/-! ### `setSt` -/

@[simp] theorem State.setSt_v (b : Byte) : (s.setSt b).v = s.v := rfl
@[simp] theorem State.setSt_i (b : Byte) : (s.setSt b).i = s.i := rfl
@[simp] theorem State.setSt_pc (b : Byte) : (s.setSt b).pc = s.pc := rfl
@[simp] theorem State.setSt_sp (b : Byte) : (s.setSt b).sp = s.sp := rfl
@[simp] theorem State.setSt_stack (b : Byte) : (s.setSt b).stack = s.stack := rfl
@[simp] theorem State.setSt_dt (b : Byte) : (s.setSt b).dt = s.dt := rfl
@[simp] theorem State.setSt_st (b : Byte) : (s.setSt b).st = b := rfl
@[simp] theorem State.setSt_mem (b : Byte) : (s.setSt b).mem = s.mem := rfl
@[simp] theorem State.setSt_disp (b : Byte) : (s.setSt b).disp = s.disp := rfl
@[simp] theorem State.setSt_run (b : Byte) : (s.setSt b).run = s.run := rfl
@[simp] theorem State.setSt_kprev (b : Byte) : (s.setSt b).kprev = s.kprev := rfl
@[simp] theorem State.setSt_keys (b : Byte) : (s.setSt b).keys = s.keys := rfl
@[simp] theorem State.setSt_rnd (b : Byte) : (s.setSt b).rnd = s.rnd := rfl
@[simp] theorem State.setSt_schedule (b : Byte) : (s.setSt b).schedule = s.schedule := rfl
@[simp] theorem State.setSt_eventCount (b : Byte) : (s.setSt b).eventCount = s.eventCount := rfl
@[simp] theorem State.setSt_loadable (b : Byte) : (s.setSt b).loadable = s.loadable := rfl
@[simp] theorem State.setSt_loadReport (b : Byte) : (s.setSt b).loadReport = s.loadReport := rfl
@[simp] theorem State.setSt_npc (b : Byte) : (s.setSt b).npc = s.npc := rfl

/-! ### `setDisp` -/

@[simp] theorem State.setDisp_v (d : Display) : (s.setDisp d).v = s.v := rfl
@[simp] theorem State.setDisp_i (d : Display) : (s.setDisp d).i = s.i := rfl
@[simp] theorem State.setDisp_pc (d : Display) : (s.setDisp d).pc = s.pc := rfl
@[simp] theorem State.setDisp_sp (d : Display) : (s.setDisp d).sp = s.sp := rfl
@[simp] theorem State.setDisp_stack (d : Display) : (s.setDisp d).stack = s.stack := rfl
@[simp] theorem State.setDisp_dt (d : Display) : (s.setDisp d).dt = s.dt := rfl
@[simp] theorem State.setDisp_st (d : Display) : (s.setDisp d).st = s.st := rfl
@[simp] theorem State.setDisp_mem (d : Display) : (s.setDisp d).mem = s.mem := rfl
@[simp] theorem State.setDisp_disp (d : Display) : (s.setDisp d).disp = d := rfl
@[simp] theorem State.setDisp_run (d : Display) : (s.setDisp d).run = s.run := rfl
@[simp] theorem State.setDisp_kprev (d : Display) : (s.setDisp d).kprev = s.kprev := rfl
@[simp] theorem State.setDisp_keys (d : Display) : (s.setDisp d).keys = s.keys := rfl
@[simp] theorem State.setDisp_rnd (d : Display) : (s.setDisp d).rnd = s.rnd := rfl
@[simp] theorem State.setDisp_schedule (d : Display) : (s.setDisp d).schedule = s.schedule := rfl
@[simp] theorem State.setDisp_eventCount (d : Display) :
    (s.setDisp d).eventCount = s.eventCount := rfl
@[simp] theorem State.setDisp_loadable (d : Display) : (s.setDisp d).loadable = s.loadable := rfl
@[simp] theorem State.setDisp_loadReport (d : Display) :
    (s.setDisp d).loadReport = s.loadReport := rfl
@[simp] theorem State.setDisp_npc (d : Display) : (s.setDisp d).npc = s.npc := rfl

/-! ### `recordKeys` -/

@[simp] theorem State.recordKeys_v : s.recordKeys.v = s.v := rfl
@[simp] theorem State.recordKeys_i : s.recordKeys.i = s.i := rfl
@[simp] theorem State.recordKeys_pc : s.recordKeys.pc = s.pc := rfl
@[simp] theorem State.recordKeys_sp : s.recordKeys.sp = s.sp := rfl
@[simp] theorem State.recordKeys_stack : s.recordKeys.stack = s.stack := rfl
@[simp] theorem State.recordKeys_dt : s.recordKeys.dt = s.dt := rfl
@[simp] theorem State.recordKeys_st : s.recordKeys.st = s.st := rfl
@[simp] theorem State.recordKeys_mem : s.recordKeys.mem = s.mem := rfl
@[simp] theorem State.recordKeys_disp : s.recordKeys.disp = s.disp := rfl
@[simp] theorem State.recordKeys_run : s.recordKeys.run = s.run := rfl
@[simp] theorem State.recordKeys_kprev : s.recordKeys.kprev = s.keys := rfl
@[simp] theorem State.recordKeys_keys : s.recordKeys.keys = s.keys := rfl
@[simp] theorem State.recordKeys_rnd : s.recordKeys.rnd = s.rnd := rfl
@[simp] theorem State.recordKeys_schedule : s.recordKeys.schedule = s.schedule := rfl
@[simp] theorem State.recordKeys_eventCount : s.recordKeys.eventCount = s.eventCount := rfl
@[simp] theorem State.recordKeys_loadable : s.recordKeys.loadable = s.loadable := rfl
@[simp] theorem State.recordKeys_loadReport : s.recordKeys.loadReport = s.loadReport := rfl
@[simp] theorem State.recordKeys_npc : s.recordKeys.npc = s.npc := rfl

/-! ### `advance` -/

@[simp] theorem State.advance_v : s.advance.v = s.v := rfl
@[simp] theorem State.advance_i : s.advance.i = s.i := rfl
@[simp] theorem State.advance_pc : s.advance.pc = s.npc := rfl
@[simp] theorem State.advance_sp : s.advance.sp = s.sp := rfl
@[simp] theorem State.advance_stack : s.advance.stack = s.stack := rfl
@[simp] theorem State.advance_dt : s.advance.dt = s.dt := rfl
@[simp] theorem State.advance_st : s.advance.st = s.st := rfl
@[simp] theorem State.advance_mem : s.advance.mem = s.mem := rfl
@[simp] theorem State.advance_disp : s.advance.disp = s.disp := rfl
@[simp] theorem State.advance_run : s.advance.run = s.run := rfl
@[simp] theorem State.advance_kprev : s.advance.kprev = s.kprev := rfl
@[simp] theorem State.advance_keys : s.advance.keys = s.keys := rfl
@[simp] theorem State.advance_rnd : s.advance.rnd = s.rnd := rfl
@[simp] theorem State.advance_schedule : s.advance.schedule = s.schedule := rfl
@[simp] theorem State.advance_eventCount : s.advance.eventCount = s.eventCount := rfl
@[simp] theorem State.advance_loadable : s.advance.loadable = s.loadable := rfl
@[simp] theorem State.advance_loadReport : s.advance.loadReport = s.loadReport := rfl

/-! ### `skipIf` -/

@[simp] theorem State.skipIf_v (c : Bool) : (s.skipIf c).v = s.v := rfl
@[simp] theorem State.skipIf_i (c : Bool) : (s.skipIf c).i = s.i := rfl
@[simp] theorem State.skipIf_pc (c : Bool) : (s.skipIf c).pc = if c then s.npc + 2 else s.npc := rfl
@[simp] theorem State.skipIf_sp (c : Bool) : (s.skipIf c).sp = s.sp := rfl
@[simp] theorem State.skipIf_stack (c : Bool) : (s.skipIf c).stack = s.stack := rfl
@[simp] theorem State.skipIf_dt (c : Bool) : (s.skipIf c).dt = s.dt := rfl
@[simp] theorem State.skipIf_st (c : Bool) : (s.skipIf c).st = s.st := rfl
@[simp] theorem State.skipIf_mem (c : Bool) : (s.skipIf c).mem = s.mem := rfl
@[simp] theorem State.skipIf_disp (c : Bool) : (s.skipIf c).disp = s.disp := rfl
@[simp] theorem State.skipIf_run (c : Bool) : (s.skipIf c).run = s.run := rfl
@[simp] theorem State.skipIf_kprev (c : Bool) : (s.skipIf c).kprev = s.kprev := rfl
@[simp] theorem State.skipIf_keys (c : Bool) : (s.skipIf c).keys = s.keys := rfl
@[simp] theorem State.skipIf_rnd (c : Bool) : (s.skipIf c).rnd = s.rnd := rfl
@[simp] theorem State.skipIf_schedule (c : Bool) : (s.skipIf c).schedule = s.schedule := rfl
@[simp] theorem State.skipIf_eventCount (c : Bool) : (s.skipIf c).eventCount = s.eventCount := rfl
@[simp] theorem State.skipIf_loadable (c : Bool) : (s.skipIf c).loadable = s.loadable := rfl
@[simp] theorem State.skipIf_loadReport (c : Bool) : (s.skipIf c).loadReport = s.loadReport := rfl

/-! ### `setFlagThenResult` -/

@[simp] theorem State.setFlagThenResult_v (x : Reg) (f r : Byte) :
    (s.setFlagThenResult x f r).v = (s.v.set VF f).set x r := rfl
@[simp] theorem State.setFlagThenResult_i (x : Reg) (f r : Byte) :
    (s.setFlagThenResult x f r).i = s.i := rfl
@[simp] theorem State.setFlagThenResult_pc (x : Reg) (f r : Byte) :
    (s.setFlagThenResult x f r).pc = s.pc := rfl
@[simp] theorem State.setFlagThenResult_sp (x : Reg) (f r : Byte) :
    (s.setFlagThenResult x f r).sp = s.sp := rfl
@[simp] theorem State.setFlagThenResult_stack (x : Reg) (f r : Byte) :
    (s.setFlagThenResult x f r).stack = s.stack := rfl
@[simp] theorem State.setFlagThenResult_dt (x : Reg) (f r : Byte) :
    (s.setFlagThenResult x f r).dt = s.dt := rfl
@[simp] theorem State.setFlagThenResult_st (x : Reg) (f r : Byte) :
    (s.setFlagThenResult x f r).st = s.st := rfl
@[simp] theorem State.setFlagThenResult_mem (x : Reg) (f r : Byte) :
    (s.setFlagThenResult x f r).mem = s.mem := rfl
@[simp] theorem State.setFlagThenResult_disp (x : Reg) (f r : Byte) :
    (s.setFlagThenResult x f r).disp = s.disp := rfl
@[simp] theorem State.setFlagThenResult_run (x : Reg) (f r : Byte) :
    (s.setFlagThenResult x f r).run = s.run := rfl
@[simp] theorem State.setFlagThenResult_kprev (x : Reg) (f r : Byte) :
    (s.setFlagThenResult x f r).kprev = s.kprev := rfl
@[simp] theorem State.setFlagThenResult_keys (x : Reg) (f r : Byte) :
    (s.setFlagThenResult x f r).keys = s.keys := rfl
@[simp] theorem State.setFlagThenResult_rnd (x : Reg) (f r : Byte) :
    (s.setFlagThenResult x f r).rnd = s.rnd := rfl
@[simp] theorem State.setFlagThenResult_schedule (x : Reg) (f r : Byte) :
    (s.setFlagThenResult x f r).schedule = s.schedule := rfl
@[simp] theorem State.setFlagThenResult_eventCount (x : Reg) (f r : Byte) :
    (s.setFlagThenResult x f r).eventCount = s.eventCount := rfl
@[simp] theorem State.setFlagThenResult_loadable (x : Reg) (f r : Byte) :
    (s.setFlagThenResult x f r).loadable = s.loadable := rfl
@[simp] theorem State.setFlagThenResult_loadReport (x : Reg) (f r : Byte) :
    (s.setFlagThenResult x f r).loadReport = s.loadReport := rfl
@[simp] theorem State.setFlagThenResult_npc (x : Reg) (f r : Byte) : (s.setFlagThenResult x f r).npc = s.npc := rfl

/-! ### `sample` -/

@[simp] theorem State.sample_v (k : Word) (r : Byte) : (s.sample k r).v = s.v := rfl
@[simp] theorem State.sample_i (k : Word) (r : Byte) : (s.sample k r).i = s.i := rfl
@[simp] theorem State.sample_pc (k : Word) (r : Byte) : (s.sample k r).pc = s.pc := rfl
@[simp] theorem State.sample_sp (k : Word) (r : Byte) : (s.sample k r).sp = s.sp := rfl
@[simp] theorem State.sample_stack (k : Word) (r : Byte) : (s.sample k r).stack = s.stack := rfl
@[simp] theorem State.sample_dt (k : Word) (r : Byte) : (s.sample k r).dt = s.dt := rfl
@[simp] theorem State.sample_st (k : Word) (r : Byte) : (s.sample k r).st = s.st := rfl
@[simp] theorem State.sample_mem (k : Word) (r : Byte) : (s.sample k r).mem = s.mem := rfl
@[simp] theorem State.sample_disp (k : Word) (r : Byte) : (s.sample k r).disp = s.disp := rfl
@[simp] theorem State.sample_run (k : Word) (r : Byte) : (s.sample k r).run = s.run := rfl
@[simp] theorem State.sample_kprev (k : Word) (r : Byte) : (s.sample k r).kprev = s.kprev := rfl
@[simp] theorem State.sample_keys (k : Word) (r : Byte) : (s.sample k r).keys = k := rfl
@[simp] theorem State.sample_rnd (k : Word) (r : Byte) : (s.sample k r).rnd = r := rfl
@[simp] theorem State.sample_schedule (k : Word) (r : Byte) :
    (s.sample k r).schedule = s.schedule := rfl
@[simp] theorem State.sample_eventCount (k : Word) (r : Byte) :
    (s.sample k r).eventCount = s.eventCount := rfl
@[simp] theorem State.sample_loadable (k : Word) (r : Byte) : (s.sample k r).loadable = false := rfl
@[simp] theorem State.sample_loadReport (k : Word) (r : Byte) :
    (s.sample k r).loadReport = s.loadReport := rfl
@[simp] theorem State.sample_npc (k : Word) (r : Byte) : (s.sample k r).npc = s.npc := rfl

/-! ### `resetWith` -/

@[simp] theorem State.resetWith_v (f : Config.Font) : (s.resetWith f).v = State.reset.v := rfl
@[simp] theorem State.resetWith_i (f : Config.Font) : (s.resetWith f).i = State.reset.i := rfl
@[simp] theorem State.resetWith_pc (f : Config.Font) : (s.resetWith f).pc = State.reset.pc := rfl
@[simp] theorem State.resetWith_sp (f : Config.Font) : (s.resetWith f).sp = State.reset.sp := rfl
@[simp] theorem State.resetWith_stack (f : Config.Font) :
    (s.resetWith f).stack = State.reset.stack := rfl
@[simp] theorem State.resetWith_dt (f : Config.Font) : (s.resetWith f).dt = State.reset.dt := rfl
@[simp] theorem State.resetWith_st (f : Config.Font) : (s.resetWith f).st = State.reset.st := rfl
@[simp] theorem State.resetWith_mem (f : Config.Font) :
    (s.resetWith f).mem = Memory.writeBytes [] 0 f.toList := rfl
@[simp] theorem State.resetWith_disp (f : Config.Font) :
    (s.resetWith f).disp = State.reset.disp := rfl
@[simp] theorem State.resetWith_run (f : Config.Font) : (s.resetWith f).run = State.reset.run := rfl
@[simp] theorem State.resetWith_kprev (f : Config.Font) :
    (s.resetWith f).kprev = State.reset.kprev := rfl
@[simp] theorem State.resetWith_keys (f : Config.Font) :
    (s.resetWith f).keys = State.reset.keys := rfl
@[simp] theorem State.resetWith_rnd (f : Config.Font) : (s.resetWith f).rnd = State.reset.rnd := rfl
@[simp] theorem State.resetWith_schedule (f : Config.Font) :
    (s.resetWith f).schedule = s.schedule := rfl
@[simp] theorem State.resetWith_eventCount (f : Config.Font) :
    (s.resetWith f).eventCount = s.eventCount := rfl
@[simp] theorem State.resetWith_loadable (f : Config.Font) :
    (s.resetWith f).loadable = State.reset.loadable := rfl
@[simp] theorem State.resetWith_loadReport (f : Config.Font) :
    (s.resetWith f).loadReport = State.reset.loadReport := rfl

/-! ### `takeEvent` -/

@[simp] theorem State.takeEvent_v : s.takeEvent.v = s.v := by
  unfold State.takeEvent; split <;> rfl
@[simp] theorem State.takeEvent_i : s.takeEvent.i = s.i := by
  unfold State.takeEvent; split <;> rfl
@[simp] theorem State.takeEvent_pc : s.takeEvent.pc = s.pc := by
  unfold State.takeEvent; split <;> rfl
@[simp] theorem State.takeEvent_sp : s.takeEvent.sp = s.sp := by
  unfold State.takeEvent; split <;> rfl
@[simp] theorem State.takeEvent_stack : s.takeEvent.stack = s.stack := by
  unfold State.takeEvent; split <;> rfl
@[simp] theorem State.takeEvent_dt : s.takeEvent.dt = s.dt := by
  unfold State.takeEvent; split <;> rfl
@[simp] theorem State.takeEvent_st : s.takeEvent.st = s.st := by
  unfold State.takeEvent; split <;> rfl
@[simp] theorem State.takeEvent_mem : s.takeEvent.mem = s.mem := by
  unfold State.takeEvent; split <;> rfl
@[simp] theorem State.takeEvent_disp : s.takeEvent.disp = s.disp := by
  unfold State.takeEvent; split <;> rfl
@[simp] theorem State.takeEvent_run : s.takeEvent.run = s.run := by
  unfold State.takeEvent; split <;> rfl
@[simp] theorem State.takeEvent_kprev : s.takeEvent.kprev = s.kprev := by
  unfold State.takeEvent; split <;> rfl
@[simp] theorem State.takeEvent_keys : s.takeEvent.keys = s.keys := by
  unfold State.takeEvent; split <;> rfl
@[simp] theorem State.takeEvent_rnd : s.takeEvent.rnd = s.rnd := by
  unfold State.takeEvent; split <;> rfl
@[simp] theorem State.takeEvent_loadable : s.takeEvent.loadable = s.loadable := by
  unfold State.takeEvent; split <;> rfl
@[simp] theorem State.takeEvent_loadReport : s.takeEvent.loadReport = s.loadReport := by
  unfold State.takeEvent; split <;> rfl

@[simp] theorem State.takeEvent_schedule : s.takeEvent.schedule = s.schedule.tail := by
  unfold State.takeEvent; split <;> simp_all

/-! ### `tick` -/

@[simp] theorem State.tick_v : s.tick.v = s.v := by
  unfold State.tick; split <;> rfl
@[simp] theorem State.tick_i : s.tick.i = s.i := by
  unfold State.tick; split <;> rfl
@[simp] theorem State.tick_pc : s.tick.pc = s.pc := by
  unfold State.tick; split <;> rfl
@[simp] theorem State.tick_sp : s.tick.sp = s.sp := by
  unfold State.tick; split <;> rfl
@[simp] theorem State.tick_stack : s.tick.stack = s.stack := by
  unfold State.tick; split <;> rfl
@[simp] theorem State.tick_mem : s.tick.mem = s.mem := by
  unfold State.tick; split <;> rfl
@[simp] theorem State.tick_disp : s.tick.disp = s.disp := by
  unfold State.tick; split <;> rfl
@[simp] theorem State.tick_run : s.tick.run = s.run := by
  unfold State.tick; split <;> rfl
@[simp] theorem State.tick_kprev : s.tick.kprev = s.kprev := by
  unfold State.tick; split <;> rfl
@[simp] theorem State.tick_keys : s.tick.keys = s.keys := by
  unfold State.tick; split <;> rfl
@[simp] theorem State.tick_rnd : s.tick.rnd = s.rnd := by
  unfold State.tick; split <;> rfl
@[simp] theorem State.tick_schedule : s.tick.schedule = s.schedule := by
  unfold State.tick; split <;> rfl
@[simp] theorem State.tick_eventCount : s.tick.eventCount = s.eventCount := by
  unfold State.tick; split <;> rfl
@[simp] theorem State.tick_loadReport : s.tick.loadReport = s.loadReport := by
  unfold State.tick; split <;> rfl

end Sys2Proof.Machine
end

