-- ==== Sys2Proof/Laws/Display.lean ====
section
/-! SUPPORT. The display: one cell after a toggle, and two displays are equal when their cells are
(spec 10_state.md R29, 43_display.md R141). -/

namespace Sys2Proof.Machine

theorem Display.cell_of_lt (d : Display) {x y : Nat} (hx : x < 64) (hy : y < 32) :
    d.cell x y = (d[y]).getLsbD x := by
  simp [Display.cell, Nat.mod_eq_of_lt hx, Nat.mod_eq_of_lt hy]

/-- Coordinates wrap (R143). -/
theorem Display.cell_mod (d : Display) (x y : Nat) : d.cell (x % 64) (y % 32) = d.cell x y := by
  simp [Display.cell]

/-- A toggle turns its own cell over and no other (R141). -/
theorem Display.cell_toggle (d : Display) (x y x' y' : Nat) :
    (d.toggle x y).cell x' y' =
      (d.cell x' y' ^^ (decide (x % 64 = x' % 64) && decide (y % 32 = y' % 32))) := by
  unfold Display.cell Display.toggle
  rw [Vector.getElem_set]
  by_cases hy : y % 32 = y' % 32
  · have hx64 : x' % 64 < 64 := Nat.mod_lt _ (by decide)
    simp [hy, hx64, eq_comm]
  · simp [hy]

@[simp] theorem cell_blankDisplay (x y : Nat) : blankDisplay.cell x y = false := by
  simp [Display.cell, blankDisplay]

theorem Display.ext_cell {d e : Display} (h : ∀ x y, x < 64 → y < 32 → d.cell x y = e.cell x y) :
    d = e := by
  apply Vector.ext
  intro y hy
  apply BitVec.eq_of_getLsbD_eq
  intro x hx
  have := h x y hx hy
  rwa [Display.cell_of_lt d hx hy, Display.cell_of_lt e hx hy] at this

end Sys2Proof.Machine
end

