-- ==== Sys2Proof/Laws/Memory.lean ====
section
/-! SUPPORT. The memory operations: what is read after a write, and that every write keeps the
canonical form (spec 20_memory.md R52, R53, R61). -/

namespace Sys2Proof.Machine

/-! ### One byte -/

@[simp] theorem Memory.readByte_nil (a : Nat) : Memory.readByte [] a = unlistedByte a := rfl

@[simp] theorem Memory.readByte_cons (c : Host.Cell) (m : Memory) (a : Nat) :
    Memory.readByte (c :: m) a = if a = c.1 then c.2 else Memory.readByte m a := rfl

theorem unlistedByte_of_le {a : Nat} (h : Config.fontLen ≤ a) : unlistedByte a = 0 := by
  simp [unlistedByte, Nat.not_lt.mpr h]

/-- An address no cell lists reads as the unlisted address. -/
theorem Memory.readByte_of_unlisted {m : Memory} {a : Nat} (h : ∀ c ∈ m, c.1 ≠ a) :
    m.readByte a = unlistedByte a := by
  induction m with
  | nil => rfl
  | cons c m ih =>
    rw [Memory.readByte_cons, if_neg (fun e => h c (by simp) e.symm)]
    exact ih fun d hd => h d (by simp [hd])

theorem Memory.readByte_cellFor_append (a b : Nat) (x : Byte) (m : Memory)
    (h : ∀ c ∈ m, c.1 ≠ a) :
    Memory.readByte (cellFor a x ++ m) b = if b = a then x else m.readByte b := by
  unfold cellFor
  split
  · rename_i hx
    by_cases hb : b = a
    · simp [hb, hx, Memory.readByte_of_unlisted h]
    · simp [hb]
  · simp

/-- Reading after a write, in any memory whose addresses rise: the byte written at its address,
every other byte as before (R61). -/
theorem Memory.readByte_writeByte {m : Memory} (hm : m.Pairwise fun c d => c.1 < d.1)
    (a b : Nat) (x : Byte) :
    (m.writeByte a x).readByte b = if b = a then x else m.readByte b := by
  induction m with
  | nil => simpa [Memory.writeByte] using Memory.readByte_cellFor_append a b x [] (by simp)
  | cons c m ih =>
    obtain ⟨hc, hm⟩ := List.pairwise_cons.mp hm
    unfold Memory.writeByte
    split
    · rename_i hlt
      refine Memory.readByte_cellFor_append a b x _ ?_
      intro d hd
      rcases List.mem_cons.mp hd with rfl | hd
      · omega
      · have := hc d hd; omega
    · split
      · rename_i heq
        rw [Memory.readByte_cellFor_append a b x m fun d hd => by have := hc d hd; omega]
        by_cases hb : b = a
        · simp [hb]
        · simp [hb, show b ≠ c.1 by omega]
      · rename_i hne
        rw [Memory.readByte_cons, ih hm, Memory.readByte_cons]
        by_cases hb : b = c.1
        · simp [hb, show c.1 ≠ a by omega]
        · simp [hb]

theorem mem_cellFor {a : Nat} {x : Byte} {c : Host.Cell} (h : c ∈ cellFor a x) :
    c = (a, x) ∧ x ≠ unlistedByte a := by
  unfold cellFor at h
  split at h
  · simp at h
  · exact ⟨by simpa using h, ‹_›⟩

/-- A cell of the memory after a write is the one written or one from before. -/
theorem Memory.mem_writeByte {m : Memory} {a : Nat} {x : Byte} {c : Host.Cell}
    (h : c ∈ m.writeByte a x) : c ∈ cellFor a x ∨ c ∈ m := by
  induction m with
  | nil => exact .inl h
  | cons d m ih =>
    unfold Memory.writeByte at h
    split at h
    · simpa using h
    · split at h
      · rcases List.mem_append.mp h with h | h
        · exact .inl h
        · exact .inr (by simp [h])
      · rcases List.mem_cons.mp h with rfl | h
        · exact .inr (by simp)
        · rcases ih h with h | h
          · exact .inl h
          · exact .inr (by simp [h])

theorem Memory.pairwise_cellFor_append {m : Memory} {a : Nat} (x : Byte)
    (hm : m.Pairwise fun c d => c.1 < d.1) (h : ∀ c ∈ m, a < c.1) :
    (cellFor a x ++ m).Pairwise fun c d => c.1 < d.1 := by
  unfold cellFor
  split
  · simpa using hm
  · simpa [hm] using h

theorem Memory.pairwise_writeByte {m : Memory} (hm : m.Pairwise fun c d => c.1 < d.1)
    (a : Nat) (x : Byte) : (m.writeByte a x).Pairwise fun c d => c.1 < d.1 := by
  induction m with
  | nil => simpa [Memory.writeByte] using Memory.pairwise_cellFor_append (m := []) x (by simp) (by simp)
  | cons c m ih =>
    obtain ⟨hc, hm'⟩ := List.pairwise_cons.mp hm
    unfold Memory.writeByte
    split
    · rename_i hlt
      refine Memory.pairwise_cellFor_append x hm ?_
      intro d hd
      rcases List.mem_cons.mp hd with rfl | hd
      · exact hlt
      · have := hc d hd; omega
    · split
      · rename_i heq
        exact Memory.pairwise_cellFor_append x hm' fun d hd => by have := hc d hd; omega
      · rename_i h1 h2
        refine List.pairwise_cons.mpr ⟨?_, ih hm'⟩
        intro d hd
        rcases Memory.mem_writeByte hd with hd | hd
        · obtain ⟨rfl, -⟩ := mem_cellFor hd
          change c.1 < a
          omega
        · exact hc d hd

/-- A write inside the address space keeps the canonical form (R53). -/
theorem Memory.wf_writeByte {m : Memory} (hm : m.wf) {a : Nat} (ha : a < Config.memSize)
    (x : Byte) : (m.writeByte a x).wf := by
  refine ⟨Memory.pairwise_writeByte hm.1 a x, fun c hc => ?_⟩
  rcases Memory.mem_writeByte hc with hc | hc
  · obtain ⟨rfl, hx⟩ := mem_cellFor hc
    exact ⟨ha, hx⟩
  · exact hm.2 c hc

/-! ### Blocks -/

@[simp] theorem Memory.writeBytes_nil (m : Memory) (a : Nat) : m.writeBytes a [] = m := rfl

@[simp] theorem Memory.writeBytes_cons (m : Memory) (a : Nat) (b : Byte) (bs : List Byte) :
    m.writeBytes a (b :: bs) = (m.writeByte a b).writeBytes (a + 1) bs := rfl

theorem Memory.pairwise_writeBytes {m : Memory} (hm : m.Pairwise fun c d => c.1 < d.1)
    (a : Nat) (bs : List Byte) : (m.writeBytes a bs).Pairwise fun c d => c.1 < d.1 := by
  induction bs generalizing m a with
  | nil => exact hm
  | cons b bs ih => exact ih (Memory.pairwise_writeByte hm a b) (a + 1)

/-- Reading after a block was stored: the byte of the block at its place, every byte outside it as
before (R61, R67). -/
theorem Memory.readByte_writeBytes {m : Memory} (hm : m.Pairwise fun c d => c.1 < d.1)
    (a b : Nat) (bs : List Byte) :
    (m.writeBytes a bs).readByte b =
      if a ≤ b ∧ b < a + bs.length then bs.getD (b - a) 0 else m.readByte b := by
  induction bs generalizing m a with
  | nil => simp [show ¬(a ≤ b ∧ b < a) by omega]
  | cons x bs ih =>
    rw [Memory.writeBytes_cons, ih (Memory.pairwise_writeByte hm a x),
      Memory.readByte_writeByte hm]
    by_cases h1 : a + 1 ≤ b ∧ b < a + 1 + bs.length
    · rw [if_pos h1, if_pos ⟨by omega, by simp; omega⟩, show b - a = (b - (a + 1)) + 1 by omega,
        List.getD_cons_succ]
    · rw [if_neg h1]
      by_cases h2 : b = a
      · subst h2; simp
      · rw [if_neg h2, if_neg]; simp; omega

/-- Storing a block inside the address space keeps the canonical form (R67). -/
theorem Memory.wf_writeBytes {m : Memory} (hm : m.wf) {a : Nat} {bs : List Byte}
    (h : a + bs.length ≤ Config.memSize) : (m.writeBytes a bs).wf := by
  induction bs generalizing m a with
  | nil => exact hm
  | cons b bs ih =>
    simp only [List.length_cons] at h
    exact ih (Memory.wf_writeByte hm (by omega) b) (by omega)

theorem Memory.wf_nil : Memory.wf [] := by simp [Memory.wf]

/-! ### Range checks and accesses (R52 to R54, R67) -/

theorem inRange_iff {a n : Nat} : inRange a n = true ↔ n = 0 ∨ a + n ≤ Config.memSize := by
  simp [inRange]

theorem State.memRead_eq_some {s : State} {a : Nat} {b : Byte} :
    s.memRead a = some b ↔ a < Config.memSize ∧ b = s.mem.readByte a := by
  unfold State.memRead
  split
  · rename_i h
    rw [inRange_iff] at h
    constructor
    · intro e; exact ⟨by omega, by simpa using e.symm⟩
    · rintro ⟨-, rfl⟩; rfl
  · rename_i h
    rw [inRange_iff] at h
    constructor
    · intro e; simp at e
    · rintro ⟨h', -⟩; omega

/-- A block read succeeds exactly when its whole range exists, and gives the bytes in order. -/
theorem State.memReadBlock_eq_some {s : State} {a n : Nat} {bs : List Byte} :
    s.memReadBlock a n = some bs ↔
      (n = 0 ∨ a + n ≤ Config.memSize) ∧
        bs = (List.range n).map fun k => s.mem.readByte (a + k) := by
  unfold State.memReadBlock
  split
  · rename_i h
    rw [inRange_iff] at h
    exact ⟨fun e => ⟨h, (Option.some.inj e).symm⟩, fun e => by rw [e.2]⟩
  · rename_i h
    rw [inRange_iff] at h
    exact ⟨fun e => by simp at e, fun e => absurd e.1 h⟩

/-- A block store succeeds exactly when its whole range exists, and changes memory alone. -/
theorem State.memWriteBlock_eq_some {s t : State} {a : Nat} {bs : List Byte} :
    s.memWriteBlock a bs = some t ↔
      (bs.length = 0 ∨ a + bs.length ≤ Config.memSize) ∧
        t = { s with mem := s.mem.writeBytes a bs } := by
  unfold State.memWriteBlock
  split
  · rename_i h
    rw [inRange_iff] at h
    exact ⟨fun e => ⟨h, (Option.some.inj e).symm⟩, fun e => by rw [e.2]⟩
  · rename_i h
    rw [inRange_iff] at h
    exact ⟨fun e => by simp at e, fun e => absurd e.1 h⟩

theorem State.fetch_eq_some {s : State} {w : Word} :
    s.fetch = some w ↔ s.pc.toNat + 1 < Config.memSize ∧
      w = wordOfBytes (s.mem.readByte s.pc.toNat) (s.mem.readByte (s.pc.toNat + 1)) := by
  unfold State.fetch
  constructor
  · intro h
    split at h
    · rename_i hi lo h1 h2
      rw [State.memRead_eq_some] at h1 h2
      exact ⟨h2.1, by rw [← h1.2, ← h2.2]; exact (Option.some.inj h).symm⟩
    · simp at h
  · rintro ⟨h, rfl⟩
    rw [State.memRead_eq_some.mpr ⟨by omega, rfl⟩, State.memRead_eq_some.mpr ⟨h, rfl⟩]

theorem State.fetch_eq_none {s : State} :
    s.fetch = none ↔ Config.memSize ≤ s.pc.toNat + 1 := by
  constructor
  · intro h
    by_contra hc
    rw [State.fetch_eq_some.mpr ⟨by omega, rfl⟩] at h
    simp at h
  · intro h
    cases hf : s.fetch with
    | none => rfl
    | some w => have := (State.fetch_eq_some.mp hf).1; omega

end Sys2Proof.Machine
end

