-- ==== Sys2Proof/Laws/Registers.lean ====
section
/-! SUPPORT. The register file, the return stack and the program counter (spec 10_state.md R20, R25,
R26, R40). -/

namespace Sys2Proof.Machine

/-! ### Registers -/

@[simp] theorem State.reg_eq (s : State) (x : Reg) : s.reg x = s.v[x] := rfl

theorem getReg_set (v : Vector Byte 16) (x r : Reg) (b : Byte) :
    (v.set x b)[r] = if r = x then b else v[r] := by
  by_cases h : r = x
  · subst h; simp
  · simp [h, Fin.val_ne_of_ne (Ne.symm h)]

theorem State.setV_reg (s : State) (x r : Reg) (b : Byte) :
    (s.setV x b).v[r] = if r = x then b else s.v[r] := getReg_set s.v x r b

/-- The flag is written first, so the result wins where both go to VF (R42). -/
theorem State.setFlagThenResult_reg (s : State) (x r : Reg) (f b : Byte) :
    (s.setFlagThenResult x f b).v[r] = if r = x then b else if r = VF then f else s.v[r] := by
  rw [State.setFlagThenResult_v, getReg_set, getReg_set]

/-- Registers after a block of bytes is put in: those from `k` on hold the bytes in order. -/
theorem getReg_putRegs (bs : List Byte) (v : Vector Byte 16) (k : Nat) (r : Reg) :
    (putRegs v k bs)[r] =
      if k ≤ r.val ∧ r.val < k + bs.length then bs.getD (r.val - k) 0 else v[r] := by
  induction bs generalizing v k with
  | nil => simp [putRegs, show ¬(k ≤ r.val ∧ r.val < k) by omega]
  | cons b bs ih =>
    rw [putRegs, ih]
    by_cases h1 : k + 1 ≤ r.val ∧ r.val < k + 1 + bs.length
    · rw [if_pos h1, if_pos ⟨by omega, by simp; omega⟩,
        show r.val - k = (r.val - (k + 1)) + 1 by omega, List.getD_cons_succ]
    · rw [if_neg h1, Fin.getElem_fin, Vector.getElem_setIfInBounds]
      by_cases h2 : k = r.val
      · subst h2; simp
      · rw [if_neg h2, if_neg]
        · rfl
        · simp; omega

theorem State.length_regsUpTo (s : State) (x : Reg) : (s.regsUpTo x).length = x.val + 1 := by
  simp [State.regsUpTo]

theorem State.getD_regsUpTo (s : State) (x r : Reg) (h : r.val ≤ x.val) :
    (s.regsUpTo x).getD r.val 0 = s.v[r] := by
  have : r.val < (s.regsUpTo x).length := by rw [State.length_regsUpTo]; omega
  rw [List.getD_eq_getElem _ _ this]
  simp [State.regsUpTo]

/-! ### Program counter -/

theorem State.toNat_npc {s : State} (h : s.pc.toNat ≤ 0xFFFD) :
    s.npc.toNat = s.pc.toNat + 2 := by
  simp only [State.npc, BitVec.toNat_add]
  rw [Nat.mod_eq_of_lt]
  · simp
  · simp; omega

@[simp] theorem toNat_zextImm (nnn : BitVec 12) : (zextImm nnn).toNat = nnn.toNat := by
  have := nnn.isLt
  simp only [zextImm, BitVec.toNat_setWidth]
  omega

@[simp] theorem toNat_zextByte (b : Byte) : (zextByte b).toNat = b.toNat := by
  have := b.isLt
  simp only [zextByte, BitVec.toNat_setWidth]
  omega

/-! ### Return stack -/

theorem State.push_eq_some {s t : State} {w : Word} :
    s.push w = some t ↔ ∃ h : s.sp.val < 16,
      t = { s with stack := s.stack.set s.sp.val w, sp := ⟨s.sp.val + 1, by omega⟩ } := by
  unfold State.push
  by_cases h : s.sp.val < 16
  · simp [h, eq_comm]
  · simp [h]

theorem State.push_eq_none {s : State} {w : Word} : s.push w = none ↔ s.sp.val = 16 := by
  unfold State.push
  by_cases h : s.sp.val < 16
  · simp [h]; omega
  · simp [h]; omega

theorem State.pop_eq_some {s t : State} {w : Word} :
    s.pop = some (w, t) ↔ ∃ h : 0 < s.sp.val,
      w = s.stack[s.sp.val - 1]'(by omega) ∧ t = { s with sp := ⟨s.sp.val - 1, by omega⟩ } := by
  unfold State.pop
  by_cases h : 0 < s.sp.val
  · simp [h, eq_comm]
  · simp [h]

theorem State.pop_eq_none {s : State} : s.pop = none ↔ s.sp.val = 0 := by
  unfold State.pop
  by_cases h : 0 < s.sp.val
  · simp [h]; omega
  · simp [h]; omega

end Sys2Proof.Machine
end

