-- ==== Sys2Proof/Laws/Answers.lean ====
section
/-! SUPPORT. What an answer can be: the inversion of `orRaise` and `raise` (spec 60_exceptions.md
R171) and of the end of a `Step` (10_state.md R40). -/

namespace Sys2Proof.Machine

theorem raise_eq_next {c : Condition} {s t : State} :
    raise c s = .next t ↔ t = { s with run := .halted c } := by
  unfold raise
  constructor
  · intro h; cases h; rfl
  · rintro rfl; rfl

/-- An instruction that may raise `c` either completes or halts with nothing else changed. -/
theorem orRaise_eq_next {c : Condition} {s t : State} {o : Option State} :
    orRaise c s o = .next t ↔ o = some t ∨ (o = none ∧ t = { s with run := .halted c }) := by
  cases o with
  | some u =>
    simp only [orRaise, Option.some.injEq, reduceCtorEq, false_and, or_false]
    constructor
    · intro h; cases h; rfl
    · rintro rfl; rfl
  | none => simp [orRaise, raise_eq_next]

theorem orRaise_next (c : Condition) (s : State) (o : Option State) :
    ∃ t, orRaise c s o = .next t := by
  cases o <;> exact ⟨_, rfl⟩

/-- A completed `Step` records the keys; a raising one changes nothing more (R40, R171). -/
theorem completeStep_eq_next {o : Answer} {t : State} :
    completeStep o = .next t ↔ ∃ u, o = .next u ∧
      ((u.run = .running ∧ t = u.recordKeys) ∨ (∃ c, u.run = .halted c ∧ t = u)) := by
  cases o with
  | next u =>
    cases hu : u.run with
    | running =>
      simp only [completeStep, hu, Host.Outcome.next.injEq]
      constructor
      · rintro rfl; exact ⟨u, rfl, .inl ⟨hu, rfl⟩⟩
      · rintro ⟨u', rfl, ⟨-, rfl⟩ | ⟨c, h, -⟩⟩
        · rfl
        · simp [hu] at h
    | halted c =>
      simp only [completeStep, hu, Host.Outcome.next.injEq]
      constructor
      · rintro rfl; exact ⟨u, rfl, .inr ⟨c, hu, rfl⟩⟩
      · rintro ⟨u', rfl, ⟨h, -⟩ | ⟨-, -, rfl⟩⟩
        · simp [hu] at h
        · rfl
  | fault r => simp [completeStep]
  | refused r => simp [completeStep]

end Sys2Proof.Machine
end

