-- ==== Sys2Proof/Laws/Decode.lean ====
section
/-! SUPPORT. The fields of the formats (spec 30_encoding.md R71, R72): each extractor gives back the
field its format was built with, and a word is put together again from its fields. -/

namespace Sys2Proof

theorem toNat_regBits (x : Reg) : (regBits x).toNat = x.val := by
  simp [regBits]

theorem toNat_formatNNN (op : BitVec 4) (nnn : BitVec 12) :
    (formatNNN op nnn).toNat = op.toNat * 4096 + nnn.toNat := by
  rw [formatNNN, BitVec.toNat_append, Nat.shiftLeft_eq, Nat.mul_comm,
    ← Nat.two_pow_add_eq_or_of_lt nnn.isLt, Nat.mul_comm]

theorem toNat_formatXNN (op : BitVec 4) (x : Reg) (nn : Byte) :
    (formatXNN op x nn).toNat = op.toNat * 4096 + x.val * 256 + nn.toNat := by
  have hx := toNat_regBits x
  rw [formatXNN, BitVec.toNat_append, BitVec.toNat_append, hx, Nat.shiftLeft_eq, Nat.shiftLeft_eq,
    Nat.mul_comm, ← Nat.two_pow_add_eq_or_of_lt nn.isLt, Nat.mul_comm op.toNat,
    ← Nat.two_pow_add_eq_or_of_lt (show x.val < 2 ^ 4 from x.isLt)]
  omega

theorem toNat_formatXYN (op : BitVec 4) (x y : Reg) (n : BitVec 4) :
    (formatXYN op x y n).toNat = op.toNat * 4096 + x.val * 256 + y.val * 16 + n.toNat := by
  have hx := toNat_regBits x
  have hy := toNat_regBits y
  rw [formatXYN, BitVec.toNat_append, BitVec.toNat_append, BitVec.toNat_append, hx, hy]
  simp only [Nat.shiftLeft_eq]
  rw [Nat.mul_comm, ← Nat.two_pow_add_eq_or_of_lt n.isLt, Nat.mul_comm _ (2 ^ 4),
    ← Nat.two_pow_add_eq_or_of_lt (show y.val < 2 ^ 4 from y.isLt), Nat.mul_comm op.toNat,
    ← Nat.two_pow_add_eq_or_of_lt (show x.val < 2 ^ 4 from x.isLt)]
  omega

theorem toNat_opNibble (w : Word) : (opNibble w).toNat = w.toNat / 4096 := by
  have := w.isLt
  simp [opNibble, BitVec.extractLsb'_toNat, Nat.shiftRight_eq_div_pow]
  omega

theorem val_fieldX (w : Word) : (fieldX w).val = w.toNat / 256 % 16 := by
  simp [fieldX, BitVec.extractLsb'_toNat, Nat.shiftRight_eq_div_pow]

theorem val_fieldY (w : Word) : (fieldY w).val = w.toNat / 16 % 16 := by
  simp [fieldY, BitVec.extractLsb'_toNat, Nat.shiftRight_eq_div_pow]

theorem toNat_fieldN (w : Word) : (fieldN w).toNat = w.toNat % 16 := by
  simp [fieldN, BitVec.extractLsb'_toNat]

theorem toNat_fieldNN (w : Word) : (fieldNN w).toNat = w.toNat % 256 := by
  simp [fieldNN, BitVec.extractLsb'_toNat]

theorem toNat_fieldNNN (w : Word) : (fieldNNN w).toNat = w.toNat % 4096 := by
  simp [fieldNNN, BitVec.extractLsb'_toNat]

/-! ### Format `NNN` -/

@[simp] theorem opNibble_formatNNN (op : BitVec 4) (nnn : BitVec 12) :
    opNibble (formatNNN op nnn) = op := by
  have := nnn.isLt
  apply BitVec.eq_of_toNat_eq
  rw [toNat_opNibble, toNat_formatNNN]
  omega

@[simp] theorem fieldNNN_formatNNN (op : BitVec 4) (nnn : BitVec 12) :
    fieldNNN (formatNNN op nnn) = nnn := by
  have := nnn.isLt
  apply BitVec.eq_of_toNat_eq
  rw [toNat_fieldNNN, toNat_formatNNN]
  omega

/-! ### Format `XNN` -/

@[simp] theorem opNibble_formatXNN (op : BitVec 4) (x : Reg) (nn : Byte) :
    opNibble (formatXNN op x nn) = op := by
  have := nn.isLt
  apply BitVec.eq_of_toNat_eq
  rw [toNat_opNibble, toNat_formatXNN]
  omega

@[simp] theorem fieldX_formatXNN (op : BitVec 4) (x : Reg) (nn : Byte) :
    fieldX (formatXNN op x nn) = x := by
  have := nn.isLt
  apply Fin.ext
  rw [val_fieldX, toNat_formatXNN]
  omega

@[simp] theorem fieldNN_formatXNN (op : BitVec 4) (x : Reg) (nn : Byte) :
    fieldNN (formatXNN op x nn) = nn := by
  have := nn.isLt
  apply BitVec.eq_of_toNat_eq
  rw [toNat_fieldNN, toNat_formatXNN]
  omega

/-! ### Formats `XYF` and `XYN` -/

@[simp] theorem opNibble_formatXYN (op : BitVec 4) (x y : Reg) (n : BitVec 4) :
    opNibble (formatXYN op x y n) = op := by
  have := n.isLt
  apply BitVec.eq_of_toNat_eq
  rw [toNat_opNibble, toNat_formatXYN]
  omega

@[simp] theorem fieldX_formatXYN (op : BitVec 4) (x y : Reg) (n : BitVec 4) :
    fieldX (formatXYN op x y n) = x := by
  have := n.isLt
  apply Fin.ext
  rw [val_fieldX, toNat_formatXYN]
  omega

@[simp] theorem fieldY_formatXYN (op : BitVec 4) (x y : Reg) (n : BitVec 4) :
    fieldY (formatXYN op x y n) = y := by
  have := n.isLt
  apply Fin.ext
  rw [val_fieldY, toNat_formatXYN]
  omega

@[simp] theorem fieldN_formatXYN (op : BitVec 4) (x y : Reg) (n : BitVec 4) :
    fieldN (formatXYN op x y n) = n := by
  have := n.isLt
  apply BitVec.eq_of_toNat_eq
  rw [toNat_fieldN, toNat_formatXYN]
  omega

/-! ### Masks (R74) -/

theorem and_nibble_ones (b : BitVec 4) : b &&& 15#4 = b := BitVec.and_allOnes

theorem and_byte_ones (b : Byte) : b &&& 255#8 = b := BitVec.and_allOnes

theorem formatNNN_and_F000 (op : BitVec 4) (nnn : BitVec 12) :
    formatNNN op nnn &&& 0xF000#16 = formatNNN op 0 := by
  rw [formatNNN, show 0xF000#16 = (0xF#4 ++ 0x000#12 : BitVec 16) by decide, BitVec.and_append]
  simp [formatNNN, and_nibble_ones]

theorem formatXNN_and_F000 (op : BitVec 4) (x : Reg) (nn : Byte) :
    formatXNN op x nn &&& 0xF000#16 = formatXNN op 0 0 := by
  rw [formatXNN, show 0xF000#16 = (0xF#4 ++ 0x0#4 ++ 0x00#8 : BitVec 16) by decide,
    BitVec.and_append, BitVec.and_append]
  simp [formatXNN, regBits, and_nibble_ones]

theorem formatXNN_and_F0FF (op : BitVec 4) (x : Reg) (nn : Byte) :
    formatXNN op x nn &&& 0xF0FF#16 = formatXNN op 0 nn := by
  rw [formatXNN, show 0xF0FF#16 = (0xF#4 ++ 0x0#4 ++ 0xFF#8 : BitVec 16) by decide,
    BitVec.and_append, BitVec.and_append]
  simp [formatXNN, regBits, and_nibble_ones, and_byte_ones]

theorem formatXYN_and_F00F (op : BitVec 4) (x y : Reg) (n : BitVec 4) :
    formatXYN op x y n &&& 0xF00F#16 = formatXYN op 0 0 n := by
  rw [formatXYN, show 0xF00F#16 = (0xF#4 ++ 0x0#4 ++ 0x0#4 ++ 0xF#4 : BitVec 16) by decide,
    BitVec.and_append, BitVec.and_append, BitVec.and_append]
  simp [formatXYN, regBits, and_nibble_ones]

theorem formatXYN_and_F000 (op : BitVec 4) (x y : Reg) (n : BitVec 4) :
    formatXYN op x y n &&& 0xF000#16 = formatXYN op 0 0 0 := by
  rw [formatXYN, show 0xF000#16 = (0xF#4 ++ 0x0#4 ++ 0x0#4 ++ 0x0#4 : BitVec 16) by decide,
    BitVec.and_append, BitVec.and_append, BitVec.and_append]
  simp [formatXYN, regBits, and_nibble_ones]

/-! ### Words from their fields -/

theorem formatNNN_fields (w : Word) : formatNNN (opNibble w) (fieldNNN w) = w := by
  have := w.isLt
  apply BitVec.eq_of_toNat_eq
  rw [toNat_formatNNN, toNat_opNibble, toNat_fieldNNN]
  omega

theorem formatXNN_fields (w : Word) : formatXNN (opNibble w) (fieldX w) (fieldNN w) = w := by
  have := w.isLt
  apply BitVec.eq_of_toNat_eq
  rw [toNat_formatXNN, toNat_opNibble, val_fieldX, toNat_fieldNN]
  omega

theorem formatXYN_fields (w : Word) :
    formatXYN (opNibble w) (fieldX w) (fieldY w) (fieldN w) = w := by
  have := w.isLt
  apply BitVec.eq_of_toNat_eq
  rw [toNat_formatXYN, toNat_opNibble, val_fieldX, val_fieldY, toNat_fieldN]
  omega

/-- The two bytes of a word put together again (R55). -/
theorem wordOfBytes_bytes (w : Word) : wordOfBytes (w.extractLsb' 8 8) (w.extractLsb' 0 8) = w := by
  have h := w.isLt
  apply BitVec.eq_of_toNat_eq
  rw [wordOfBytes, BitVec.toNat_append, Nat.shiftLeft_eq, Nat.mul_comm,
    ← Nat.two_pow_add_eq_or_of_lt (BitVec.isLt _)]
  simp [BitVec.extractLsb'_toNat, Nat.shiftRight_eq_div_pow]
  omega

end Sys2Proof
end

