-- ==== Sys2Proof/Laws/Drawing.lean ====
section
/-! SUPPORT. What drawing a sprite does (spec 43_display.md R141 to R144): the drawing is the toggling
of the sprite's pixels, no two of which fall on the same cell, so every cell under a 1 bit is turned
over once and the collision flag says whether one of them was on. -/

namespace Sys2Proof.Machine

/-- The two coordinate pairs name the same cell (R143). -/
abbrev SameCell (a b : Nat × Nat) : Prop := a.1 % 64 = b.1 % 64 ∧ a.2 % 32 = b.2 % 32

/-- The pixels plotted one after the other. -/
def Canvas.plotAll (p : Canvas) : List (Nat × Nat) → Canvas
  | [] => p
  | a :: rest => Canvas.plotAll (p.plot a.1 a.2) rest

/-- The pixels of a sprite row that are 1, from column offset `col` on. -/
def rowPixels (x y : Nat) (b : Byte) (col left : Nat) : List (Nat × Nat) :=
  ((List.range' col left).filter (spriteBit b)).map fun c => (x + c, y)

/-- The pixels of a sprite that are 1. -/
def spritePixels (x y : Nat) : List Byte → List (Nat × Nat)
  | [] => []
  | b :: bs => rowPixels x y b 0 8 ++ spritePixels x (y + 1) bs

theorem Canvas.plotAll_append (p : Canvas) (l m : List (Nat × Nat)) :
    p.plotAll (l ++ m) = (p.plotAll l).plotAll m := by
  induction l generalizing p with
  | nil => rfl
  | cons a l ih => exact ih _

theorem Canvas.plotRow_eq (p : Canvas) (x y : Nat) (b : Byte) (col left : Nat) :
    p.plotRow x y b col left = p.plotAll (rowPixels x y b col left) := by
  induction left generalizing p col with
  | zero => rfl
  | succ left ih =>
    rw [Canvas.plotRow, ih]
    by_cases h : spriteBit b col <;> simp [rowPixels, List.range'_succ, h, Canvas.plotAll]

theorem Canvas.plotRows_eq (p : Canvas) (x y : Nat) (bs : List Byte) :
    p.plotRows x y bs = p.plotAll (spritePixels x y bs) := by
  induction bs generalizing p y with
  | nil => rfl
  | cons b bs ih => rw [Canvas.plotRows, ih, Canvas.plotRow_eq, spritePixels, Canvas.plotAll_append]

/-! ## No two pixels of a sprite share a cell (R144) -/

theorem mem_rowPixels {x y col left : Nat} {b : Byte} {a : Nat × Nat} :
    a ∈ rowPixels x y b col left ↔
      ∃ c, col ≤ c ∧ c < col + left ∧ spriteBit b c = true ∧ a = (x + c, y) := by
  rw [rowPixels, List.mem_map]
  refine exists_congr fun c => ?_
  rw [List.mem_filter, List.mem_range'_1, eq_comm (a := a)]
  tauto

theorem mem_spritePixels {x y : Nat} {bs : List Byte} {a : Nat × Nat} :
    a ∈ spritePixels x y bs ↔
      ∃ row c, row < bs.length ∧ c < 8 ∧ spriteBit (bs.getD row 0) c = true ∧
        a = (x + c, y + row) := by
  induction bs generalizing y with
  | nil =>
    constructor
    · rintro ⟨⟩
    · rintro ⟨_, _, ⟨⟩, -⟩
  | cons b bs ih =>
    rw [spritePixels, List.mem_append, mem_rowPixels, ih]
    constructor
    · rintro (⟨c, -, hc, hb, rfl⟩ | ⟨row, c, hr, hc, hb, rfl⟩)
      · exact ⟨0, c, by simp, by omega, by simpa using hb, rfl⟩
      · exact ⟨row + 1, c, by simpa using hr, hc, by simpa using hb, by ext <;> simp; omega⟩
    · rintro ⟨row, c, hr, hc, hb, rfl⟩
      cases row with
      | zero => exact .inl ⟨c, by omega, by omega, by simpa using hb, rfl⟩
      | succ row =>
        exact .inr ⟨row, c, by simpa using hr, hc, by simpa using hb, by ext <;> simp; omega⟩

theorem rowPixels_distinct (x y : Nat) (b : Byte) (col left : Nat) (h : left ≤ 64) :
    (rowPixels x y b col left).Pairwise fun a c => ¬SameCell a c := by
  refine List.pairwise_map.2 (List.Pairwise.filter _ ?_)
  refine List.pairwise_iff_getElem.2 fun i j hi hj hij hc => ?_
  obtain ⟨hc, -⟩ := hc
  rw [List.length_range'] at hi hj
  simp only [List.getElem_range'] at hc
  omega

theorem spritePixels_distinct (x y : Nat) (bs : List Byte) (h : bs.length ≤ 32) :
    (spritePixels x y bs).Pairwise fun a c => ¬SameCell a c := by
  induction bs generalizing y with
  | nil => exact .nil
  | cons b bs ih =>
    refine List.pairwise_append.2
      ⟨rowPixels_distinct x y b 0 8 (by decide), ih _ (by simp at h; omega), ?_⟩
    rintro a ha c hc ⟨-, hs⟩
    obtain ⟨k, -, -, -, rfl⟩ := mem_rowPixels.1 ha
    obtain ⟨row, k', hr, -, -, rfl⟩ := mem_spritePixels.1 hc
    simp only [List.length_cons] at h hs
    omega

/-! ## The effect on a cell and on the collision flag -/

/-- Pixels on different cells: each cell under one is turned over, no other changes. -/
theorem Canvas.cell_plotAll {l : List (Nat × Nat)} (h : l.Pairwise fun a c => ¬SameCell a c)
    (p : Canvas) (cx cy : Nat) :
    (p.plotAll l).disp.cell cx cy =
      (p.disp.cell cx cy ^^ l.any fun a => decide (SameCell a (cx, cy))) := by
  induction l generalizing p with
  | nil => simp [Canvas.plotAll]
  | cons a l ih =>
    obtain ⟨ha, hl⟩ := List.pairwise_cons.1 h
    rw [Canvas.plotAll, ih hl, Canvas.plot, Display.cell_toggle, List.any_cons]
    by_cases hs : SameCell a (cx, cy)
    · have : (l.any fun c => decide (SameCell c (cx, cy))) = false := by
        rw [List.any_eq_false]
        intro c hc hcs
        rw [decide_eq_true_iff] at hcs
        exact ha c hc ⟨hs.1.trans hcs.1.symm, hs.2.trans hcs.2.symm⟩
      rw [this, decide_eq_true hs]
      simp [hs.1, hs.2]
    · have h3 : (decide (a.1 % 64 = cx % 64) && decide (a.2 % 32 = cy % 32)) = false := by
        simpa [SameCell] using hs
      rw [h3, decide_eq_false hs, Bool.xor_false, Bool.false_or]

/-- Pixels on different cells: there is a collision when a cell under one of them was on. -/
theorem Canvas.coll_plotAll {l : List (Nat × Nat)} (h : l.Pairwise fun a c => ¬SameCell a c)
    (p : Canvas) : (p.plotAll l).coll = (p.coll || l.any fun a => p.disp.cell a.1 a.2) := by
  induction l generalizing p with
  | nil => simp [Canvas.plotAll]
  | cons a l ih =>
    obtain ⟨ha, hl⟩ := List.pairwise_cons.1 h
    have hsame : (l.any fun c => (p.plot a.1 a.2).disp.cell c.1 c.2) =
        l.any fun c => p.disp.cell c.1 c.2 := by
      rw [Bool.eq_iff_iff, List.any_eq_true, List.any_eq_true]
      refine exists_congr fun c => and_congr_right fun hc => ?_
      have h3 : (decide (a.1 % 64 = c.1 % 64) && decide (a.2 % 32 = c.2 % 32)) = false := by
        simpa [SameCell] using ha c hc
      rw [Canvas.plot, Display.cell_toggle, h3, Bool.xor_false]
    rw [Canvas.plotAll, ih hl, hsame, Canvas.plot, List.any_cons, Bool.or_assoc]

theorem underSprite_iff {bs : List Byte} {x y cx cy : Nat} (hx : cx < 64) (hy : cy < 32) :
    underSprite bs x y cx cy = true ↔ ∃ a ∈ spritePixels x y bs, SameCell a (cx, cy) := by
  simp only [underSprite, List.any_eq_true, List.mem_range, Bool.and_eq_true, beq_iff_eq,
    mem_spritePixels, spriteBit, SameCell, Nat.mod_eq_of_lt hx, Nat.mod_eq_of_lt hy]
  constructor
  · rintro ⟨row, hr, c, hc, ⟨hb, h1⟩, h2⟩
    exact ⟨_, ⟨row, c, hr, hc, hb, rfl⟩, h1, h2⟩
  · rintro ⟨_, ⟨row, c, hr, hc, hb, rfl⟩, h1, h2⟩
    exact ⟨row, hr, c, hc, ⟨hb, h1⟩, h2⟩

/-- Every cell under a 1 bit of the sprite is turned over, no other changes (R144 b). -/
theorem Canvas.cell_plotRows (p : Canvas) (x y : Nat) (bs : List Byte) (h : bs.length ≤ 32)
    {cx cy : Nat} (hx : cx < 64) (hy : cy < 32) :
    (p.plotRows x y bs).disp.cell cx cy = (p.disp.cell cx cy ^^ underSprite bs x y cx cy) := by
  rw [Canvas.plotRows_eq, Canvas.cell_plotAll (spritePixels_distinct x y bs h)]
  congr 1
  rw [Bool.eq_iff_iff, underSprite_iff hx hy, List.any_eq_true]
  simp only [decide_eq_true_iff]

/-- There is a collision when a cell under a 1 bit of the sprite was on (R144 d). -/
theorem Canvas.coll_plotRows (p : Canvas) (x y : Nat) (bs : List Byte) (h : bs.length ≤ 32) :
    (p.plotRows x y bs).coll = true ↔ p.coll = true ∨ ∃ cx cy, cx < 64 ∧ cy < 32 ∧
      p.disp.cell cx cy = true ∧ underSprite bs x y cx cy = true := by
  rw [Canvas.plotRows_eq, Canvas.coll_plotAll (spritePixels_distinct x y bs h), Bool.or_eq_true,
    List.any_eq_true]
  refine or_congr_right ⟨?_, ?_⟩
  · rintro ⟨a, ha, hc⟩
    have hx : a.1 % 64 < 64 := Nat.mod_lt _ (by decide)
    have hy : a.2 % 32 < 32 := Nat.mod_lt _ (by decide)
    exact ⟨a.1 % 64, a.2 % 32, hx, hy, by rwa [Display.cell_mod],
      (underSprite_iff hx hy).2 ⟨a, ha, by simp [SameCell]⟩⟩
  · rintro ⟨cx, cy, hx, hy, hc, hu⟩
    obtain ⟨a, ha, h1, h2⟩ := (underSprite_iff hx hy).1 hu
    refine ⟨a, ha, ?_⟩
    rwa [← Display.cell_mod, h1, h2, Display.cell_mod]

end Sys2Proof.Machine
end

