-- ==== Sys2Proof/Laws/Exec.lean ====
section
/-! SUPPORT. What the instructions that may raise a condition, or wait, can answer: one inversion lemma
each (spec 40_flow.md R100, R102, 42_index_memory.md R133 to R135, 43_display.md R141, 44_input.md
R152). Every other instruction's meaning is already an equation `.next …`. -/

namespace Sys2Proof.Machine

variable {s t : State}

/-- 00EE pops, or underflows with nothing else changed (R100). -/
theorem execRet_eq_next : execRet s = .next t ↔
    (∃ h : 0 < s.sp.val,
      t = { s with sp := ⟨s.sp.val - 1, by omega⟩, pc := s.stack[s.sp.val - 1]'(by omega) }) ∨
    (s.sp.val = 0 ∧ t = { s with run := .halted .stackUnderflow }) := by
  rw [execRet, orRaise_eq_next]
  simp only [Option.map_eq_some_iff, Prod.exists, State.pop_eq_some, Option.map_eq_none_iff,
    State.pop_eq_none]
  constructor
  · rintro (⟨a, b, ⟨h, rfl, rfl⟩, rfl⟩ | h)
    · exact .inl ⟨h, rfl⟩
    · exact .inr h
  · rintro (⟨h, rfl⟩ | h)
    · exact .inl ⟨_, _, ⟨h, rfl, rfl⟩, rfl⟩
    · exact .inr h

/-- 2NNN pushes and jumps, or overflows with nothing else changed (R102). -/
theorem execCall_eq_next {nnn : BitVec 12} : execCall nnn s = .next t ↔
    (∃ h : s.sp.val < 16,
      t = { s with
        stack := s.stack.set s.sp.val s.npc, sp := ⟨s.sp.val + 1, by omega⟩, pc := zextImm nnn }) ∨
    (s.sp.val = 16 ∧ t = { s with run := .halted .stackOverflow }) := by
  rw [execCall, orRaise_eq_next]
  simp only [Option.map_eq_some_iff, State.push_eq_some, Option.map_eq_none_iff, State.push_eq_none]
  constructor
  · rintro (⟨a, ⟨h, rfl⟩, rfl⟩ | h)
    · exact .inl ⟨h, rfl⟩
    · exact .inr h
  · rintro (⟨h, rfl⟩ | h)
    · exact .inl ⟨_, ⟨h, rfl⟩, rfl⟩
    · exact .inr h

/-- A block store that may raise `AddressOutOfRange` (R67): it stores and advances, or halts with
nothing else changed. -/
theorem storeBlock_eq_next {a : Nat} {bs : List Byte} (hb : bs ≠ []) :
    orRaise .addressOutOfRange s ((s.memWriteBlock a bs).map State.advance) = .next t ↔
    (a + bs.length ≤ 4096 ∧ t = { s with mem := s.mem.writeBytes a bs, pc := s.npc }) ∨
    (4096 < a + bs.length ∧ t = { s with run := .halted .addressOutOfRange }) := by
  have hl : bs.length ≠ 0 := by simpa using hb
  rw [orRaise_eq_next]
  simp only [Option.map_eq_some_iff, State.memWriteBlock_eq_some, Option.map_eq_none_iff, hl,
    false_or]
  have hn : s.memWriteBlock a bs = none ↔ 4096 < a + bs.length := by
    simp [State.memWriteBlock, inRange, hl]
  rw [hn]
  constructor
  · rintro (⟨u, ⟨h, rfl⟩, rfl⟩ | h)
    · exact .inl ⟨h, rfl⟩
    · exact .inr h
  · rintro (⟨h, rfl⟩ | h)
    · exact .inl ⟨_, ⟨h, rfl⟩, rfl⟩
    · exact .inr h

/-- FX33 (R133). -/
theorem execLdB_eq_next {x : Reg} : execLdB x s = .next t ↔
    (s.i.toNat + 3 ≤ 4096 ∧
      t = { s with mem := s.mem.writeBytes s.i.toNat (decimalDigits s.v[x]), pc := s.npc }) ∨
    (4096 < s.i.toNat + 3 ∧ t = { s with run := .halted .addressOutOfRange }) :=
  storeBlock_eq_next (bs := decimalDigits s.v[x]) (by simp [decimalDigits])

/-- FX55 (R134). -/
theorem execStoreRegs_eq_next {x : Reg} : execStoreRegs x s = .next t ↔
    (s.i.toNat + (x.val + 1) ≤ 4096 ∧
      t = { s with mem := s.mem.writeBytes s.i.toNat (s.regsUpTo x), pc := s.npc }) ∨
    (4096 < s.i.toNat + (x.val + 1) ∧ t = { s with run := .halted .addressOutOfRange }) := by
  have hl := State.length_regsUpTo s x
  have := storeBlock_eq_next (s := s) (t := t) (a := s.effAddr 0) (bs := s.regsUpTo x)
    (by intro h; simp [h] at hl)
  rw [hl] at this
  exact this

/-- A block read that may raise `AddressOutOfRange` (R67): it reads and goes on, or halts with
nothing else changed. -/
theorem readBlock_eq_next {a n : Nat} {f : List Byte → State} :
    orRaise .addressOutOfRange s ((s.memReadBlock a n).map f) = .next t ↔
    ((n = 0 ∨ a + n ≤ 4096) ∧ t = f ((List.range n).map fun k => s.mem.readByte (a + k))) ∨
    ((n ≠ 0 ∧ 4096 < a + n) ∧ t = { s with run := .halted .addressOutOfRange }) := by
  rw [orRaise_eq_next]
  simp only [Option.map_eq_some_iff, State.memReadBlock_eq_some, Option.map_eq_none_iff]
  have hn : s.memReadBlock a n = none ↔ n ≠ 0 ∧ 4096 < a + n := by
    simp [State.memReadBlock, inRange]
  rw [hn]
  constructor
  · rintro (⟨u, ⟨h, rfl⟩, rfl⟩ | h)
    · exact .inl ⟨h, rfl⟩
    · exact .inr h
  · rintro (⟨h, rfl⟩ | h)
    · exact .inl ⟨_, ⟨h, rfl⟩, rfl⟩
    · exact .inr h

/-- FX65 (R135). -/
theorem execLoadRegs_eq_next {x : Reg} : execLoadRegs x s = .next t ↔
    (s.i.toNat + (x.val + 1) ≤ 4096 ∧
      t = { s with
        v := putRegs s.v 0 ((List.range (x.val + 1)).map fun k => s.mem.readByte (s.i.toNat + k))
        pc := s.npc }) ∨
    (4096 < s.i.toNat + (x.val + 1) ∧ t = { s with run := .halted .addressOutOfRange }) := by
  rw [execLoadRegs, readBlock_eq_next]
  simp [State.effAddr, State.advance, State.setPc, State.npc]

/-- DXYN (R141). -/
theorem execDrw_eq_next {x y : Reg} {n : BitVec 4} : execDrw x y n s = .next t ↔
    ((n.toNat = 0 ∨ s.i.toNat + n.toNat ≤ 4096) ∧
      ∃ c, c = s.drawSprite x y
          ((List.range n.toNat).map fun k => s.mem.readByte (s.i.toNat + k)) ∧
        t = { s with disp := c.disp, v := s.v.set VF (collisionFlag c), pc := s.npc }) ∨
    ((n.toNat ≠ 0 ∧ 4096 < s.i.toNat + n.toNat) ∧
      t = { s with run := .halted .addressOutOfRange }) := by
  rw [execDrw, readBlock_eq_next]
  simp [State.effAddr, State.advance, State.setPc, State.npc, State.setDisp, State.setV]

/-- The smallest newly pressed key (R152). -/
theorem State.newKey_eq_some {b : Byte} : s.newKey = some b ↔
    ∃ k, k < 16 ∧ b = BitVec.ofNat 8 k ∧ s.newKeys.getLsbD k = true ∧
      ∀ j, j < k → s.newKeys.getLsbD j = false := by
  simp only [State.newKey, Option.map_eq_some_iff, List.find?_range_eq_some]
  constructor
  · rintro ⟨k, ⟨h1, h2, h3⟩, rfl⟩
    exact ⟨k, by simpa using h2, rfl, h1, fun j hj => by simpa using h3 j hj⟩
  · rintro ⟨k, h1, rfl, h2, h3⟩
    exact ⟨k, ⟨h2, by simpa using h1, fun j hj => by simpa using h3 j hj⟩, rfl⟩

theorem State.newKey_eq_none : s.newKey = none ↔ s.newKeys = 0 := by
  rw [State.newKey, Option.map_eq_none_iff, List.find?_eq_none]
  constructor
  · intro h
    apply BitVec.eq_of_getLsbD_eq
    intro k hk
    simpa using h k (by simpa using hk)
  · intro h k _
    simp [h]

/-- FX0A: the lowest new key is taken, or nothing changes (R152). -/
theorem State.awaitKey_cases (s : State) (x : Reg) :
    (∃ b, s.newKey = some b ∧ s.awaitKey x = (s.setV x b).advance) ∨
    (s.newKey = none ∧ s.awaitKey x = s) := by
  unfold State.awaitKey
  cases s.newKey with
  | some b => exact .inl ⟨b, rfl, rfl⟩
  | none => exact .inr ⟨rfl, rfl⟩

end Sys2Proof.Machine
end

