-- ==== Sys2Proof/Laws/Events.lean ====
section
/-! SUPPORT. What one step can be: an inversion lemma per event, and one for the step (spec 00_scope.md
R6, 10_state.md R40, 60_exceptions.md R183, 70_reset_and_hazards.md R200, 20_memory.md R66). -/

namespace Sys2Proof.Machine

variable {s t : State}

/-! ### Reads that the taking of an event does not change -/

@[simp] theorem State.takeEvent_fetch (s : State) : s.takeEvent.fetch = s.fetch := by
  simp [State.fetch, State.memRead]

@[simp] theorem State.sample_fetch (s : State) (keys : Word) (rnd : Byte) :
    (s.sample keys rnd).fetch = s.fetch := rfl

/-! ### Step -/

/-- The instruction cycle: a fetch or decode failure, or an instruction executed (R40). -/
theorem runInstruction_eq_next : runInstruction s = .next t ↔
    (s.fetch = none ∧ t = { s with run := .halted .addressOutOfRange }) ∨
    (∃ w r, s.fetch = some w ∧ decode w = .error r ∧
      t = { s with run := .halted .invalidOpcode }) ∨
    (∃ w i u, s.fetch = some w ∧ decode w = .ok i ∧ exec i s = .next u ∧
      ((u.run = .running ∧ t = u.recordKeys) ∨ ∃ c, u.run = .halted c ∧ t = u)) := by
  unfold runInstruction
  cases hf : s.fetch with
  | none => simp [raise_eq_next]
  | some w =>
    cases hd : decode w with
    | error r => simp [raise_eq_next, hd]
    | ok i => simp [completeStep_eq_next, hd]

/-- A `Step` that runs: the cycle on the state with the event taken and its inputs sampled. -/
theorem step_of_running {keys : Word} {rnd : Byte} (he : s.nextEvent = .step keys rnd)
    (hr : s.run = .running) : step s = runInstruction (s.takeEvent.sample keys rnd) := by
  simp [step, performEvent, he, stepEvent, hr]

/-- A `Step` while halted uses up its event and changes nothing (R172). -/
theorem step_of_halted {keys : Word} {rnd : Byte} {c : Condition}
    (he : s.nextEvent = .step keys rnd) (hr : s.run = .halted c) : step s = .next s.takeEvent := by
  simp [step, performEvent, he, stepEvent, hr]

/-! ### Tick -/

theorem toNat_countDown (b : Byte) : (countDown b).toNat = b.toNat - 1 := by
  have := b.isLt
  unfold countDown
  split
  · exact BitVec.toNat_sub_of_le (show (1#8).toNat ≤ b.toNat from ‹b.toNat > 0›)
  · omega

theorem step_of_tick (he : s.nextEvent = .tick) : step s = .next s.takeEvent.tick := by
  simp [step, performEvent, he]

theorem State.tick_of_running (hr : s.run = .running) :
    s.tick = { s with dt := countDown s.dt, st := countDown s.st, loadable := false } := by
  simp [State.tick, hr]

theorem State.tick_of_halted {c : Condition} (hr : s.run = .halted c) : s.tick = s := by
  simp [State.tick, hr]

/-! ### Reset and Load -/

theorem step_of_reset {font : Config.Font} (he : s.nextEvent = .reset font) :
    step s = .next (s.takeEvent.resetWith font) := by
  simp [step, performEvent, he]

theorem step_of_load {bytes : List Byte} (he : s.nextEvent = .load bytes) :
    step s = loadEvent bytes s.takeEvent := by
  simp [step, performEvent, he]

theorem loadEvent_eq_next {bytes : List Byte} : loadEvent bytes s = .next t ↔
    (s.loadable = true ∧ s.run = .running) ∧
      ((3584 < bytes.length ∧ t = { s with loadReport := .romTooLarge }) ∨
       (bytes.length ≤ 3584 ∧ t = { s with
          mem := s.mem.writeBytes 0x200 bytes, loadable := false, loadReport := .loaded })) := by
  unfold loadEvent
  split
  · rename_i h
    split
    · rename_i hl
      simp only [Host.Outcome.next.injEq]
      constructor
      · rintro rfl; exact ⟨h, .inl ⟨hl, rfl⟩⟩
      · rintro ⟨-, ⟨-, rfl⟩ | ⟨h', -⟩⟩
        · rfl
        · simp [Config.progMax] at hl; omega
    · rename_i hl
      simp only [Host.Outcome.next.injEq]
      constructor
      · rintro rfl; exact ⟨h, .inr ⟨by simpa using hl, rfl⟩⟩
      · rintro ⟨-, ⟨h', -⟩ | ⟨-, rfl⟩⟩
        · simp [Config.progMax] at hl; omega
        · rfl
  · rename_i h
    simp [h]

/-! ### The step -/

/-- Everything a step that answers a next state can be. -/
theorem step_cases (h : step s = .next t) :
    (∃ font, s.nextEvent = .reset font ∧ t = s.takeEvent.resetWith font) ∨
    (∃ bytes, s.nextEvent = .load bytes ∧ loadEvent bytes s.takeEvent = .next t) ∨
    (s.nextEvent = .tick ∧ t = s.takeEvent.tick) ∨
    (∃ keys rnd, s.nextEvent = .step keys rnd ∧
      ((∃ c, s.run = .halted c ∧ t = s.takeEvent) ∨
       (s.run = .running ∧ runInstruction (s.takeEvent.sample keys rnd) = .next t))) := by
  cases he : s.nextEvent with
  | reset font => rw [step_of_reset he] at h; cases h; exact .inl ⟨font, rfl, rfl⟩
  | load bytes => rw [step_of_load he] at h; exact .inr (.inl ⟨bytes, rfl, h⟩)
  | tick => rw [step_of_tick he] at h; cases h; exact .inr (.inr (.inl ⟨rfl, rfl⟩))
  | step keys rnd =>
    refine .inr (.inr (.inr ⟨keys, rnd, rfl, ?_⟩))
    cases hr : s.run with
    | running => rw [step_of_running he hr] at h; exact .inr ⟨rfl, h⟩
    | halted c => rw [step_of_halted he hr] at h; cases h; exact .inl ⟨c, rfl, rfl⟩

end Sys2Proof.Machine
end

