-- ==== Sys2Proof/Laws/PerInstr.lean ====
section
/-! SUPPORT. For every instruction: its opcode selects the row of the opcode map it stands for (spec
30_encoding.md R74). -/

namespace Sys2Proof.Laws.RowMatch

/-- The opcode of a well-formed instruction lies under the mask and match of its row (R74). -/
def Statement (i : Instr) : Prop := i.wellFormed = true → i.row.selects (encode i) = true

theorem cls : Statement .cls := by
  exact fun _ => rfl

theorem ret : Statement .ret := by
  exact fun _ => rfl

theorem jp (nnn : BitVec 12) : Statement (.jp nnn) := by
  intro _
  exact beq_iff_eq.mpr ((formatNNN_and_F000 ..).trans rfl)

theorem call (nnn : BitVec 12) : Statement (.call nnn) := by
  intro _
  exact beq_iff_eq.mpr ((formatNNN_and_F000 ..).trans rfl)

theorem seImm (x : Reg) (nn : Byte) : Statement (.seImm x nn) := by
  intro _
  exact beq_iff_eq.mpr ((formatXNN_and_F000 ..).trans rfl)

theorem sneImm (x : Reg) (nn : Byte) : Statement (.sneImm x nn) := by
  intro _
  exact beq_iff_eq.mpr ((formatXNN_and_F000 ..).trans rfl)

theorem seReg (x y : Reg) : Statement (.seReg x y) := by
  intro _
  exact beq_iff_eq.mpr ((formatXYN_and_F00F ..).trans rfl)

theorem ldImm (x : Reg) (nn : Byte) : Statement (.ldImm x nn) := by
  intro _
  exact beq_iff_eq.mpr ((formatXNN_and_F000 ..).trans rfl)

theorem addImm (x : Reg) (nn : Byte) : Statement (.addImm x nn) := by
  intro _
  exact beq_iff_eq.mpr ((formatXNN_and_F000 ..).trans rfl)

theorem ldReg (x y : Reg) : Statement (.ldReg x y) := by
  intro _
  exact beq_iff_eq.mpr ((formatXYN_and_F00F ..).trans rfl)

theorem orReg (x y : Reg) : Statement (.orReg x y) := by
  intro _
  exact beq_iff_eq.mpr ((formatXYN_and_F00F ..).trans rfl)

theorem andReg (x y : Reg) : Statement (.andReg x y) := by
  intro _
  exact beq_iff_eq.mpr ((formatXYN_and_F00F ..).trans rfl)

theorem xorReg (x y : Reg) : Statement (.xorReg x y) := by
  intro _
  exact beq_iff_eq.mpr ((formatXYN_and_F00F ..).trans rfl)

theorem addReg (x y : Reg) : Statement (.addReg x y) := by
  intro _
  exact beq_iff_eq.mpr ((formatXYN_and_F00F ..).trans rfl)

theorem subReg (x y : Reg) : Statement (.subReg x y) := by
  intro _
  exact beq_iff_eq.mpr ((formatXYN_and_F00F ..).trans rfl)

theorem shr (x y : Reg) : Statement (.shr x y) := by
  intro _
  exact beq_iff_eq.mpr ((formatXYN_and_F00F ..).trans rfl)

theorem subnReg (x y : Reg) : Statement (.subnReg x y) := by
  intro _
  exact beq_iff_eq.mpr ((formatXYN_and_F00F ..).trans rfl)

theorem shl (x y : Reg) : Statement (.shl x y) := by
  intro _
  exact beq_iff_eq.mpr ((formatXYN_and_F00F ..).trans rfl)

theorem sneReg (x y : Reg) : Statement (.sneReg x y) := by
  intro _
  exact beq_iff_eq.mpr ((formatXYN_and_F00F ..).trans rfl)

theorem ldI (nnn : BitVec 12) : Statement (.ldI nnn) := by
  intro _
  exact beq_iff_eq.mpr ((formatNNN_and_F000 ..).trans rfl)

theorem jpV0 (nnn : BitVec 12) : Statement (.jpV0 nnn) := by
  intro _
  exact beq_iff_eq.mpr ((formatNNN_and_F000 ..).trans rfl)

theorem rnd (x : Reg) (nn : Byte) : Statement (.rnd x nn) := by
  intro _
  exact beq_iff_eq.mpr ((formatXNN_and_F000 ..).trans rfl)

theorem drw (x y : Reg) (n : BitVec 4) : Statement (.drw x y n) := by
  intro _
  exact beq_iff_eq.mpr ((formatXYN_and_F000 ..).trans rfl)

theorem skp (x : Reg) : Statement (.skp x) := by
  intro _
  exact beq_iff_eq.mpr ((formatXNN_and_F0FF ..).trans rfl)

theorem sknp (x : Reg) : Statement (.sknp x) := by
  intro _
  exact beq_iff_eq.mpr ((formatXNN_and_F0FF ..).trans rfl)

theorem ldVxDt (x : Reg) : Statement (.ldVxDt x) := by
  intro _
  exact beq_iff_eq.mpr ((formatXNN_and_F0FF ..).trans rfl)

theorem ldDtVx (x : Reg) : Statement (.ldDtVx x) := by
  intro _
  exact beq_iff_eq.mpr ((formatXNN_and_F0FF ..).trans rfl)

theorem ldStVx (x : Reg) : Statement (.ldStVx x) := by
  intro _
  exact beq_iff_eq.mpr ((formatXNN_and_F0FF ..).trans rfl)

theorem addI (x : Reg) : Statement (.addI x) := by
  intro _
  exact beq_iff_eq.mpr ((formatXNN_and_F0FF ..).trans rfl)

theorem ldKey (x : Reg) : Statement (.ldKey x) := by
  intro _
  exact beq_iff_eq.mpr ((formatXNN_and_F0FF ..).trans rfl)

theorem ldF (x : Reg) : Statement (.ldF x) := by
  intro _
  exact beq_iff_eq.mpr ((formatXNN_and_F0FF ..).trans rfl)

theorem ldB (x : Reg) : Statement (.ldB x) := by
  intro _
  exact beq_iff_eq.mpr ((formatXNN_and_F0FF ..).trans rfl)

theorem storeRegs (x : Reg) : Statement (.storeRegs x) := by
  intro _
  exact beq_iff_eq.mpr ((formatXNN_and_F0FF ..).trans rfl)

theorem loadRegs (x : Reg) : Statement (.loadRegs x) := by
  intro _
  exact beq_iff_eq.mpr ((formatXNN_and_F0FF ..).trans rfl)

theorem sys (nnn : BitVec 12) : Statement (.sys nnn) := by
  intro _
  exact beq_iff_eq.mpr ((formatNNN_and_F000 ..).trans rfl)

end Sys2Proof.Laws.RowMatch
end

