-- ==== Sys2Proof/Tests/Slice0.lean ====
section
/-! SUPPORT. The tests. Expected results are those of spec/95_test_vectors.md (the vector's id stands in
each docstring or name) and words written out bit by bit from 30_encoding.md R71 and R74; the
witnesses show that the hypotheses of the statements can be met, at the ends of their ranges. -/

namespace Sys2Proof.Tests

open Sys2Proof.Machine

/-! ## Well-formedness: the one check refuses its ill-formed terms (R74) -/

theorem test_sys_refused_where_cls : (Instr.sys 0x0E0).wellFormed = false := by decide

theorem test_sys_refused_where_ret : (Instr.sys 0x0EE).wellFormed = false := by decide

theorem test_sys_accepted : (Instr.sys 0x0E1).wellFormed = true := by decide

/-! ## Decoding: one word for every constructor, bit by bit -/

theorem test_decode_cls : decode 0b0000000011100000 = .ok .cls := by decide

theorem test_decode_ret : decode 0b0000000011101110 = .ok .ret := by decide

theorem test_decode_jp : decode 0b0001100011010001 = .ok (.jp 0x8D1) := by decide

theorem test_decode_call : decode 0b0010100011010001 = .ok (.call 0x8D1) := by decide

theorem test_decode_seImm : decode 0b0011101011000011 = .ok (.seImm 0xA 0xC3) := by decide

theorem test_decode_sneImm : decode 0b0100101011000011 = .ok (.sneImm 0xA 0xC3) := by decide

theorem test_decode_seReg : decode 0b0101101001010000 = .ok (.seReg 0xA 5) := by decide

theorem test_decode_ldImm : decode 0b0110101011000011 = .ok (.ldImm 0xA 0xC3) := by decide

theorem test_decode_addImm : decode 0b0111101011000011 = .ok (.addImm 0xA 0xC3) := by decide

theorem test_decode_ldReg : decode 0b1000101001010000 = .ok (.ldReg 0xA 5) := by decide

theorem test_decode_orReg : decode 0b1000101001010001 = .ok (.orReg 0xA 5) := by decide

theorem test_decode_andReg : decode 0b1000101001010010 = .ok (.andReg 0xA 5) := by decide

theorem test_decode_xorReg : decode 0b1000101001010011 = .ok (.xorReg 0xA 5) := by decide

theorem test_decode_addReg : decode 0b1000101001010100 = .ok (.addReg 0xA 5) := by decide

theorem test_decode_subReg : decode 0b1000101001010101 = .ok (.subReg 0xA 5) := by decide

theorem test_decode_shr : decode 0b1000101001010110 = .ok (.shr 0xA 5) := by decide

theorem test_decode_subnReg : decode 0b1000101001010111 = .ok (.subnReg 0xA 5) := by decide

theorem test_decode_shl : decode 0b1000101001011110 = .ok (.shl 0xA 5) := by decide

theorem test_decode_sneReg : decode 0b1001101001010000 = .ok (.sneReg 0xA 5) := by decide

theorem test_decode_ldI : decode 0b1010100011010001 = .ok (.ldI 0x8D1) := by decide

theorem test_decode_jpV0 : decode 0b1011100011010001 = .ok (.jpV0 0x8D1) := by decide

theorem test_decode_rnd : decode 0b1100101011000011 = .ok (.rnd 0xA 0xC3) := by decide

theorem test_decode_drw : decode 0b1101101001011001 = .ok (.drw 0xA 5 9) := by decide

theorem test_decode_skp : decode 0b1110101010011110 = .ok (.skp 0xA) := by decide

theorem test_decode_sknp : decode 0b1110101010100001 = .ok (.sknp 0xA) := by decide

theorem test_decode_ldVxDt : decode 0b1111101000000111 = .ok (.ldVxDt 0xA) := by decide

theorem test_decode_ldDtVx : decode 0b1111101000010101 = .ok (.ldDtVx 0xA) := by decide

theorem test_decode_ldStVx : decode 0b1111101000011000 = .ok (.ldStVx 0xA) := by decide

theorem test_decode_addI : decode 0b1111101000011110 = .ok (.addI 0xA) := by decide

theorem test_decode_ldKey : decode 0b1111101000001010 = .ok (.ldKey 0xA) := by decide

theorem test_decode_ldF : decode 0b1111101000101001 = .ok (.ldF 0xA) := by decide

theorem test_decode_ldB : decode 0b1111101000110011 = .ok (.ldB 0xA) := by decide

theorem test_decode_storeRegs : decode 0b1111101001010101 = .ok (.storeRegs 0xA) := by decide

theorem test_decode_loadRegs : decode 0b1111101001100101 = .ok (.loadRegs 0xA) := by decide

theorem test_decode_sys : decode 0b0000100011010001 = .ok (.sys 0x8D1) := by decide

/-- T7: words next to the defined ones are refused. -/
theorem test_decode_refuses :
    decode 0x512F = .error .invalidOpcode ∧ decode 0x8129 = .error .invalidOpcode ∧
    decode 0x812F = .error .invalidOpcode ∧ decode 0xE1A0 = .error .invalidOpcode ∧
    decode 0xE000 = .error .invalidOpcode ∧ decode 0xF100 = .error .invalidOpcode ∧
    decode 0xF1FF = .error .invalidOpcode := by decide

/-- T1: high byte first; the rest of the bytes is handed on. -/
theorem test_decode_bytes : decodeBytes [0x6A, 0x01, 0xFF] = .ok (.ldImm 0xA 1, [0xFF]) := by decide

theorem test_decode_truncated : decodeBytes [0x6A] = .error .truncated := by decide

theorem test_table_word : decodeTableWord 16 0x6A01 = some (.ldImm 0xA 1) := by decide

/-! ## Steps on small states -/

/-- `op` at `PC`, and a `Step` with the given inputs next. -/
def poised (s : State) (op : Word) (keys : Word := 0) (rnd : Byte := 0) : State :=
  { s with
    mem := s.mem.writeBytes s.pc.toNat [op.extractLsb' 8 8, op.extractLsb' 0 8]
    schedule := [.step keys rnd] }

/-- The `Step` of `op` answers a next state of which `p` holds. -/
def after (s : State) (op : Word) (p : State → Bool) (keys : Word := 0) (rnd : Byte := 0) : Bool :=
  match step (poised s op keys rnd) with
  | .next t => p t
  | .fault _ | .refused _ => false

/-- The next event takes `s` to exactly `t`. -/
def stepsTo (s t : State) : Bool :=
  match step s with
  | .next u => u == t
  | .fault _ | .refused _ => false

/-- The reset state with bytes stored at an address. -/
def stored (a : Nat) (bytes : List Byte) : State :=
  { State.reset with mem := Memory.writeBytes [] a bytes }

/-- The reset state with `I` at `a`. -/
def indexed (a : Word) : State := { State.reset with i := a }

/-- The reset state with the given cells on. -/
def lit (cells : List (Nat × Nat)) (s : State) : State :=
  { s with disp := cells.foldl (fun d c => d.toggle c.1 c.2) s.disp }

/-- The display shows exactly the given cells. -/
def shows (t : State) (cells : List (Nat × Nat)) : Bool :=
  t.disp == (lit cells State.reset).disp

/-- Halted with `c`, `PC` at `a`. -/
def haltedAt (t : State) (c : Condition) (a : Word) : Bool := t.run == .halted c && t.pc == a

/-- G1. -/
theorem test_cls :
    after (lit [(4, 3)] (State.reset.setV 15 1)) 0x00E0
      (fun t => shows t [] && t.v[15] == 1 && t.pc == 0x202) = true := by decide

/-- F8. -/
theorem test_ret :
    after { State.reset with pc := 0x300, sp := 1, stack := State.reset.stack.set 0 0x202 } 0x00EE
      (fun t => t.pc == 0x202 && t.sp == 0 && t.stack[0] == 0x202) = true := by decide

/-- F9. -/
theorem test_ret_underflow :
    after State.reset 0x00EE
      (fun t => haltedAt t .stackUnderflow 0x200 && t.sp == 0) = true := by decide

/-- F1. -/
theorem test_jp :
    after State.reset 0x1ABC
      (fun t => t.pc == 0xABC) = true := by decide

/-- F5. -/
theorem test_call :
    after { State.reset with sp := 15 } 0x2300
      (fun t => t.stack[15] == 0x202 && t.sp == 16 && t.pc == 0x300) = true := by decide

/-- F6. -/
theorem test_call_overflow :
    after { State.reset with sp := 16 } 0x2300
      (fun t => haltedAt t .stackOverflow 0x200 && t.sp == 16) = true := by decide

/-- F12. -/
theorem test_seImm_skips :
    after (State.reset.setV 3 0x2A) 0x332A
      (fun t => t.pc == 0x204) = true := by decide

/-- F13. -/
theorem test_seImm_goes_on :
    after (State.reset.setV 3 0x2B) 0x332A
      (fun t => t.pc == 0x202) = true := by decide

/-- F14. -/
theorem test_sneImm_goes_on :
    after (State.reset.setV 3 0x2A) 0x432A
      (fun t => t.pc == 0x202) = true := by decide

/-- F15. -/
theorem test_sneImm_skips :
    after (State.reset.setV 3 0x2B) 0x432A
      (fun t => t.pc == 0x204) = true := by decide

/-- F16. -/
theorem test_seReg_skips :
    after ((State.reset.setV 1 7).setV 2 7) 0x5120
      (fun t => t.pc == 0x204) = true := by decide

/-- F17. -/
theorem test_seReg_goes_on :
    after ((State.reset.setV 1 7).setV 2 8) 0x5120
      (fun t => t.pc == 0x202) = true := by decide

/-- F18. -/
theorem test_sneReg_skips :
    after ((State.reset.setV 1 7).setV 2 8) 0x9120
      (fun t => t.pc == 0x204) = true := by decide

/-- F19. -/
theorem test_sneReg_goes_on :
    after ((State.reset.setV 1 7).setV 2 7) 0x9120
      (fun t => t.pc == 0x202) = true := by decide

/-- F11. -/
theorem test_jpV0 :
    after (State.reset.setV 0 0xFF) 0xBFFF
      (fun t => t.pc == 0x10FE && t.run == .running) = true := by decide

/-- A1. -/
theorem test_ldImm :
    after State.reset 0x6FAB
      (fun t => t.v[15] == 0xAB && t.pc == 0x202) = true := by decide

/-- A3. -/
theorem test_addImm_wraps :
    after (State.reset.setV 1 0xFF) 0x7101
      (fun t => t.v[1] == 0 && t.v[15] == 0) = true := by decide

/-- A4. -/
theorem test_addImm_into_flag :
    after (State.reset.setV 15 0xFF) 0x7F01
      (fun t => t.v[15] == 0) = true := by decide

/-- A5. -/
theorem test_ldReg :
    after ((State.reset.setV 1 0xA5).setV 2 0x0F) 0x8120
      (fun t => t.v[1] == 0x0F && t.v[2] == 0x0F) = true := by decide

/-- A10. -/
theorem test_orReg :
    after (((State.reset.setV 15 1).setV 1 0xA5).setV 2 0x0F) 0x8121
      (fun t => t.v[1] == 0xAF && t.v[15] == 1) = true := by decide

/-- A7. -/
theorem test_andReg :
    after ((State.reset.setV 1 0xA5).setV 2 0x0F) 0x8122
      (fun t => t.v[1] == 0x05 && t.v[15] == 0) = true := by decide

/-- A8. -/
theorem test_xorReg :
    after ((State.reset.setV 1 0xA5).setV 2 0x0F) 0x8123
      (fun t => t.v[1] == 0xAA && t.v[15] == 0) = true := by decide

/-- A12. -/
theorem test_addReg_carries :
    after ((State.reset.setV 1 0x80).setV 2 0x80) 0x8124
      (fun t => t.v[1] == 0 && t.v[15] == 1) = true := by decide

/-- A14. -/
theorem test_addReg_into_flag :
    after ((State.reset.setV 15 0xF0).setV 1 0x20) 0x8F14
      (fun t => t.v[15] == 0x10) = true := by decide

/-- A16. -/
theorem test_subReg_equal :
    after ((State.reset.setV 1 5).setV 2 5) 0x8125
      (fun t => t.v[1] == 0 && t.v[15] == 0) = true := by decide

/-- A20. -/
theorem test_subReg_from_flag :
    after ((State.reset.setV 1 0x10).setV 15 1) 0x81F5
      (fun t => t.v[1] == 0x0F && t.v[15] == 1) = true := by decide

/-- A27. -/
theorem test_shr :
    after ((State.reset.setV 1 0xFE).setV 2 0x33) 0x8126
      (fun t => t.v[1] == 0x7F && t.v[15] == 0 && t.v[2] == 0x33) = true := by decide

/-- A28. -/
theorem test_shr_flag :
    after (State.reset.setV 15 3) 0x8F06
      (fun t => t.v[15] == 1) = true := by decide

/-- A22. -/
theorem test_subnReg :
    after ((State.reset.setV 1 2).setV 2 5) 0x8127
      (fun t => t.v[1] == 3 && t.v[15] == 1) = true := by decide

/-- A23. -/
theorem test_subnReg_borrows :
    after ((State.reset.setV 1 5).setV 2 2) 0x8127
      (fun t => t.v[1] == 0xFD && t.v[15] == 0) = true := by decide

/-- A29. -/
theorem test_shl :
    after (State.reset.setV 1 0x80) 0x812E
      (fun t => t.v[1] == 0 && t.v[15] == 1) = true := by decide

/-- A31. -/
theorem test_shl_flag :
    after (State.reset.setV 15 0xC1) 0x8F0E
      (fun t => t.v[15] == 0x82) = true := by decide

/-- A32. -/
theorem test_rnd :
    after State.reset 0xC5F0
      (fun t => t.v[5] == 0xB0) (rnd := 0xB7) = true := by decide

/-- M1. -/
theorem test_ldI :
    after State.reset 0xAFFF
      (fun t => t.i == 0xFFF) = true := by decide

/-- M2. -/
theorem test_addI :
    after ((indexed 0xFFE).setV 1 5) 0xF11E
      (fun t => t.i == 0x1003 && t.v[15] == 0) = true := by decide

/-- M3. -/
theorem test_addI_wraps :
    after ((indexed 0xFFFF).setV 1 2) 0xF11E
      (fun t => t.i == 1) = true := by decide

/-- M5. -/
theorem test_ldF :
    after (State.reset.setV 2 0xFF) 0xF229
      (fun t => t.i == 0x4FB) = true := by decide

/-- M10. -/
theorem test_ldB :
    after ((indexed 0xFFD).setV 4 255) 0xF433
      (fun t => [0xFFD, 0xFFE, 0xFFF].map t.mem.readByte == [2, 5, 5] && t.i == 0xFFD) = true := by decide

/-- M11. -/
theorem test_ldB_out_of_range :
    after ((indexed 0xFFE).setV 4 255) 0xF433
      (fun t => haltedAt t .addressOutOfRange 0x200 && t.mem.readByte 0xFFE == 0) = true := by decide

/-- M14, with one more register. -/
theorem test_storeRegs :
    after (((indexed 0xFFE).setV 0 0xAB).setV 1 0xCD) 0xF155
      (fun t => [0xFFE, 0xFFF].map t.mem.readByte == [0xAB, 0xCD] && t.i == 0xFFE) = true := by decide

/-- M15. -/
theorem test_storeRegs_out_of_range :
    after ((indexed 0x1000).setV 0 0xAB) 0xF055
      (fun t => haltedAt t .addressOutOfRange 0x200) = true := by decide

/-- M16. -/
theorem test_loadRegs :
    after ((({ stored 0x400 [0x0A, 0x0B, 0x0C] with i := 0x400 } : State)).setV 3 0x77) 0xF265
      (fun t => t.v.toList.take 4 == [0x0A, 0x0B, 0x0C, 0x77] && t.i == 0x400) = true := by decide

/-- M19. -/
theorem test_loadRegs_font :
    after State.reset 0xF465
      (fun t => t.v.toList.take 5 == [0xF0, 0x90, 0x90, 0x90, 0xF0]) = true := by decide

/-- G2. -/
theorem test_drw_wraps :
    after (((({ stored 0x300 [0xFF] with i := 0x300 } : State)).setV 0 60).setV 1 31) 0xD011
      (fun t => shows t [(60, 31), (61, 31), (62, 31), (63, 31), (0, 31), (1, 31), (2, 31), (3, 31)]
        && t.v[15] == 0) = true := by decide

/-- G6. -/
theorem test_drw_collides :
    after (lit [(1, 0)] { stored 0x300 [0xC0] with i := 0x300 }) 0xD011
      (fun t => shows t [(0, 0)] && t.v[15] == 1) = true := by decide

/-- K1. -/
theorem test_skp :
    after (State.reset.setV 3 0x0A) 0xE39E
      (fun t => t.pc == 0x204 && t.kprev == 0x400) (keys := 0x400) = true := by decide

/-- K9. -/
theorem test_skp_no_key :
    after (State.reset.setV 3 0x1A) 0xE39E
      (fun t => t.pc == 0x202) (keys := 0x400) = true := by decide

/-- K3. -/
theorem test_sknp :
    after (State.reset.setV 3 0x0A) 0xE3A1
      (fun t => t.pc == 0x202) (keys := 0x400) = true := by decide

/-- K8. -/
theorem test_sknp_no_key :
    after (State.reset.setV 3 0x10) 0xE3A1
      (fun t => t.pc == 0x204) (keys := 0xFFFF) = true := by decide

/-- K13. -/
theorem test_ldKey_takes :
    after { State.reset with kprev := 0x10 } 0xF50A
      (fun t => t.v[5] == 5 && t.pc == 0x202 && t.kprev == 0x30) (keys := 0x30) = true := by decide

/-- K12. -/
theorem test_ldKey_waits :
    after { State.reset with kprev := 0x10 } 0xF50A
      (fun t => t.v[5] == 0 && t.pc == 0x200 && t.kprev == 0x10) (keys := 0x10) = true := by decide

/-- C1t. -/
theorem test_ldVxDt :
    after { State.reset with dt := 0x2A } 0xF707
      (fun t => t.v[7] == 0x2A && t.dt == 0x2A) = true := by decide

/-- C2t. -/
theorem test_ldDtVx :
    after (State.reset.setV 7 0xFF) 0xF715
      (fun t => t.dt == 0xFF) = true := by decide

/-- C3t. -/
theorem test_ldStVx :
    after (State.reset.setV 7 0xFF) 0xF718
      (fun t => t.st == 0xFF && t.tone) = true := by decide

/-- T7. -/
theorem test_sys :
    after State.reset 0x0123
      (fun t => haltedAt t .invalidOpcode 0x200) = true := by decide

/-- T2. -/
theorem test_last_word :
    after { State.reset with pc := 0xFFE } 0x6A01
      (fun t => t.v[10] == 1 && t.pc == 0x1000) = true := by decide

/-- T3. -/
theorem test_fetch_out_of_range :
    after { State.reset with pc := 0xFFF } 0x6A01
      (fun t => haltedAt t .addressOutOfRange 0xFFF) = true := by decide

/-- T5: with nothing loaded the first `Step` halts. -/
theorem test_unloaded : stepsTo { State.reset with schedule := [.step 0 0] }
    { State.reset with run := .halted .invalidOpcode, loadable := false } = true := by decide

/-- T6: halted, a `Step` changes nothing. -/
theorem test_halted_step :
    stepsTo { State.reset with run := .halted .invalidOpcode, dt := 5, schedule := [.step 0 0] }
      { State.reset with run := .halted .invalidOpcode, dt := 5 } = true := by decide

/-- C4t and C5t: both timers count down, one at 0 stays. -/
theorem test_tick : stepsTo { State.reset with dt := 2, schedule := [.tick] }
    { State.reset with dt := 1, loadable := false } = true := by decide

/-- P1: `Load` puts the program at 0x200. -/
theorem test_load : stepsTo { State.reset with schedule := [.load [0x60, 0x0A]] }
    { State.reset with
      mem := [(0x200, 0x60), (0x201, 0x0A)]
      loadable := false
      loadReport := .loaded } = true := by decide

/-- T10: one byte too many. -/
theorem test_load_too_large (bytes : List Byte) (h : bytes.length = 3585) :
    step { State.reset with schedule := [.load bytes] } =
      .next { State.reset with loadReport := .romTooLarge } := by
  simp [step, State.nextEvent, State.takeEvent, performEvent, loadEvent, State.reset, h,
    Config.progMax]

/-- A second `Load` is refused (R66). -/
theorem test_load_twice :
    step { State.reset with loadable := false, schedule := [.load [0x60, 0x0A]] } =
      .refused .loadNotAfterReset := rfl

/-- `Reset` with the recommended font leaves memory listing nothing, from a halted state too. -/
theorem test_reset_event :
    stepsTo { State.reset with
      run := .halted .stackOverflow
      dt := 5
      mem := [(0x300, 7)]
      schedule := [.reset Config.recommendedFont] } State.reset = true := by decide

/-- `withFetchWord`: the very next step runs the word. -/
theorem test_withFetchWord :
    (match step (State.reset.withFetchWord 16 0x6A01) with
      | .next t => t.v[10] == 1 && t.pc == 0x202
      | .fault _ | .refused _ => false) = true := by decide

/-- The numeric codes of `RUN` (R170). -/
theorem test_run_codes : [RunStatus.running, .halted .invalidOpcode, .halted .stackOverflow,
    .halted .stackUnderflow, .halted .addressOutOfRange].map RunStatus.code = [0, 1, 2, 3, 4] := by
  decide

/-! ## Witnesses: the hypotheses of the statements are met -/

/-- A state about to run `6A01` at the reset vector. -/
def ready : State := poised State.reset 0x6A01

/-- A state about to halt on `0000`. -/
def doomed : State := { State.reset with schedule := [.step 0x10 0] }

theorem witness_DecodeOfEncodeIsIdentity : (Instr.drw 15 0 15).wellFormed = true := by decide

theorem witness_EncodeOfDecodeIsIdentity : decode 0x0FFF = .ok (.sys 0xFFF) := by decide

theorem witness_DecoderFollowsOpcodeMap :
    (opcodeMap.any (·.selects 0x8126)) = true ∧ sysRow.selects 0x0FFF = true ∧
    (opcodeMap.any (·.selects 0x8128)) = false ∧ sysRow.selects 0x8128 = false := by decide

theorem witness_FetchReadsTwoBytesHighByteFirst_last :
    ({ State.reset with pc := 0xFFE } : State).pc.toNat ≤ 0xFFE := by decide

theorem witness_FetchReadsTwoBytesHighByteFirst_first :
    0xFFF ≤ ({ State.reset with pc := 0xFFF } : State).pc.toNat := by decide

theorem witness_StepRunsDecodedInstruction :
    ready.nextEvent = .step 0 0 ∧ ready.run = .running ∧ ready.pc.toNat + 1 ≤ 0xFFF ∧
    (Instr.ldImm 10 1).wellFormed = true ∧
    decodeBytes [ready.mem.readByte ready.pc.toNat, ready.mem.readByte (ready.pc.toNat + 1)] =
      .ok (.ldImm 10 1, []) := by decide

/-- At the last address a fetch succeeds at. -/
theorem witness_StepRunsDecodedInstruction_last :
    let s := poised { State.reset with pc := 0xFFE } 0x6A01
    s.nextEvent = .step 0 0 ∧ s.run = .running ∧ s.pc.toNat + 1 ≤ 0xFFF ∧
    decodeBytes [s.mem.readByte s.pc.toNat, s.mem.readByte (s.pc.toNat + 1)] =
      .ok (.ldImm 10 1, []) := by decide

theorem witness_CompletedStepRecordsKeys_running :
    ready.nextEvent = .step 0 0 ∧ ready.run = .running ∧
    ∃ t, step ready = .next t ∧ t.run = .running := ⟨by decide, by decide, _, rfl, by decide⟩

theorem witness_CompletedStepRecordsKeys_halted :
    doomed.nextEvent = .step 0x10 0 ∧ doomed.run = .running ∧
    ∃ t, step doomed = .next t ∧ t.run ≠ .running := ⟨by decide, by decide, _, rfl, by decide⟩

theorem witness_FetchBeyondMemoryHalts :
    let s : State := { doomed with pc := 0xFFF }
    s.nextEvent = .step 0x10 0 ∧ s.run = .running ∧ 0xFFF ≤ s.pc.toNat := by decide

theorem witness_UnrecognizedOpcodeHalts :
    doomed.nextEvent = .step 0x10 0 ∧ doomed.run = .running ∧ doomed.fetch = some 0x0000 ∧
    ∀ r ∈ opcodeMap, r.selects 0x0000 = false := by decide

theorem witness_NextPcOfEveryInstruction :
    State.reset.run = .running ∧ State.reset.pc.toNat ≤ 0xFFE ∧
    ∃ t, exec (.jp 0x300) State.reset = .next t ∧ t.run = .running :=
  ⟨rfl, by decide, _, rfl, rfl⟩

theorem witness_FatalConditionsArePreciseAndExact :
    State.reset.run = .running ∧ fatalCause .ret State.reset = some .stackUnderflow ∧
    fatalCause .cls State.reset = none := by decide

/-- The boundary of each condition: raised at the one value, not at its neighbour. -/
theorem witness_FatalConditionsArePreciseAndExact_boundaries :
    fatalCause .ret { State.reset with sp := 1 } = none ∧
    fatalCause (.call 0) { State.reset with sp := 16 } = some .stackOverflow ∧
    fatalCause (.call 0) { State.reset with sp := 15 } = none ∧
    fatalCause (.drw 0 0 1) (indexed 0x1000) = some .addressOutOfRange ∧
    fatalCause (.drw 0 0 1) (indexed 0xFFF) = none ∧
    fatalCause (.drw 0 0 0) (indexed 0x1000) = none ∧
    fatalCause (.ldB 0) (indexed 0xFFE) = some .addressOutOfRange ∧
    fatalCause (.ldB 0) (indexed 0xFFD) = none ∧
    fatalCause (.storeRegs 15) (indexed 0xFF1) = some .addressOutOfRange ∧
    fatalCause (.storeRegs 15) (indexed 0xFF0) = none ∧
    fatalCause (.loadRegs 15) (indexed 0xFF1) = some .addressOutOfRange ∧
    fatalCause (.loadRegs 15) (indexed 0xFF0) = none := by decide

theorem witness_HaltedCoreIsPermanent :
    let s : State := { State.reset with run := .halted .stackOverflow, schedule := [.tick, .step 1 2] }
    s.run = .halted .stackOverflow ∧
    ∀ e ∈ s.schedule, e = .tick ∨ ∃ keys rnd, e = .step keys rnd :=
  ⟨rfl, by simp⟩

theorem witness_OnlyResetLeavesHalt :
    let s : State := { State.reset with run := .halted .stackOverflow, schedule := [.tick] }
    s.run = .halted .stackOverflow ∧ ∃ t, step s = .next t := ⟨rfl, _, rfl⟩

theorem witness_StepRefusesOnlyLateLoad :
    let s : State := { State.reset with loadable := false, schedule := [.load []] }
    s.nextEvent = .load [] ∧ ¬(s.loadable = true ∧ s.run = .running) := by decide

theorem witness_ResetEventLeavesResetState :
    ({ State.reset with schedule := [.reset Config.recommendedFont] } : State).nextEvent =
      .reset Config.recommendedFont := rfl

/-- Both clauses, at the longest program that fits and one byte more. -/
theorem witness_LoadStoresProgramOrReportsTooLarge :
    ∀ bytes ∈ [List.replicate 3584 (1 : Byte), List.replicate 3585 (1 : Byte)],
      let s : State := { State.reset with schedule := [.load bytes] }
      s.nextEvent = .load bytes ∧ s.loadable = true ∧ s.run = .running ∧ s.mem.wf := by
  intro bytes _
  exact ⟨rfl, rfl, rfl, List.Pairwise.nil, nofun⟩

theorem witness_LoadStoresProgramOrReportsTooLarge_lengths :
    (List.replicate 3584 (1 : Byte)).length ≤ 3584 ∧
    3584 < (List.replicate 3585 (1 : Byte)).length := by
  rw [List.length_replicate, List.length_replicate]
  decide

theorem witness_TickCountsTimersDown :
    ({ State.reset with schedule := [.tick] } : State).nextEvent = .tick ∧
    State.reset.run = .running ∧
    ({ State.reset with schedule := [.tick], run := .halted .stackOverflow } : State).nextEvent = .tick ∧
    ({ State.reset with run := .halted .stackOverflow } : State).run ≠ .running := by decide

theorem witness_TimersReachZeroAfterTheirTicks :
    let s : State := { State.reset with schedule := [.tick, .tick, .step 0 0], dt := 2, st := 1 }
    s.run = .running ∧ s.schedule = List.replicate 2 .tick ++ [.step 0 0] := by decide

theorem witness_DelayTimerNeverRisesWithoutSet :
    (∃ t, step ready = .next t) ∧ ∃ keys rnd, ready.nextEvent = .step keys rnd ∧
      ∀ w x, ready.fetch = some w → decode w ≠ .ok (.ldDtVx x) := by
  refine ⟨⟨_, rfl⟩, 0, 0, rfl, fun w x h => ?_⟩
  rw [show ready.fetch = some 0x6A01 by decide] at h
  cases h
  rw [show decode 0x6A01 = .ok (.ldImm 10 1) by decide]
  simp

theorem witness_DelayTimerNeverRisesWithoutSet_tick :
    let s : State := { State.reset with dt := 1, schedule := [.tick] }
    s.nextEvent = .tick ∧ ∃ t, step s = .next t := ⟨rfl, _, rfl⟩

theorem witness_EveryStepKeepsInvariant : ready.inv ∧ ∃ t, step ready = .next t :=
  ⟨⟨by decide, by decide, by decide⟩, _, rfl⟩

/-- The largest `PC` and stack slot the invariant allows. -/
theorem witness_EveryStepKeepsInvariant_largest :
    let s : State :=
      { State.reset with
        pc := 0x10FE, stack := Vector.replicate 16 0x1000, schedule := [.step 0 0] }
    s.inv ∧ ∃ t, step s = .next t :=
  ⟨⟨by decide, by decide, by decide⟩, _, rfl⟩

theorem witness_MemoriesThatReadAlikeAreEqual :
    let m : Memory := [(0x200, 1), (0x201, 2)]
    m.wf ∧ m.wf ∧ ∀ a, m.readByte a = m.readByte a := ⟨by decide, by decide, fun _ => rfl⟩

/-- An instruction of each kind the frames speak of answers a next state: a store, a flag writer, an
index load, a call, a draw. -/
theorem witness_InstructionsStoreOnlyTheirBytes :
    State.reset.mem.wf ∧ ∃ t, exec (.storeRegs 15) State.reset = .next t :=
  ⟨by decide, _, rfl⟩

theorem witness_OnlyDestinationsAndFlagChange :
    let s := (State.reset.setV 1 0x80).setV 2 0x80
    ∃ t, exec (.addReg 1 2) s = .next t ∧ t.v[VF] ≠ s.v[VF] ∧ t.v[(1 : Reg)] ≠ s.v[(1 : Reg)] :=
  ⟨_, rfl, by decide, by decide⟩

theorem witness_FlagIsZeroOrOne :
    State.reset.run = .running ∧ writesFlag (.subReg 1 2) = true ∧
    namesDestination (.subReg 1 2) VF = false ∧
    ∃ t, exec (.subReg 1 2) State.reset = .next t ∧ t.run = .running :=
  ⟨rfl, rfl, by decide, _, rfl, rfl⟩

theorem witness_SpecialRegistersHaveTheirWriters :
    (∃ t, exec (.ldI 1) State.reset = .next t ∧ t.i ≠ State.reset.i) ∧
    (∃ t, exec (.ldDtVx 1) (State.reset.setV 1 1) = .next t ∧ t.dt ≠ State.reset.dt) ∧
    (∃ t, exec (.ldStVx 1) (State.reset.setV 1 1) = .next t ∧ t.st ≠ State.reset.st) ∧
    ∃ t, exec .cls (lit [(0, 0)] State.reset) = .next t ∧
      t.disp ≠ (lit [(0, 0)] State.reset).disp :=
  ⟨⟨_, rfl, by decide⟩, ⟨_, rfl, by decide⟩, ⟨_, rfl, by decide⟩, ⟨_, rfl, by decide⟩⟩

theorem witness_OnlyCallAndReturnTouchStack :
    ∃ t, exec (.call 0x300) State.reset = .next t ∧ t.sp ≠ State.reset.sp ∧
      t.stack ≠ State.reset.stack := ⟨_, rfl, by decide, by decide⟩

theorem witness_InstructionsLeaveInputsAlone :
    ∃ t, exec (.ldKey 5) { State.reset with keys := 2 } = .next t := ⟨_, rfl⟩

theorem witness_OnlyRandomInstructionReadsRandomByte :
    (∀ x nn, Instr.addImm 1 2 ≠ .rnd x nn) ∧ ∃ t, exec (.addImm 1 2) State.reset = .next t :=
  ⟨by simp, _, rfl⟩

theorem witness_OnlyKeypadInstructionsReadKeys :
    (∀ x, Instr.addImm 1 2 ≠ .skp x ∧ Instr.addImm 1 2 ≠ .sknp x ∧ Instr.addImm 1 2 ≠ .ldKey x) ∧
    ∃ t, exec (.addImm 1 2) State.reset = .next t := ⟨by simp, _, rfl⟩

theorem witness_CallPushesReturnAddress :
    ({ State.reset with sp := 15 } : State).sp.val < 16 ∧
    ({ State.reset with sp := 16 } : State).sp.val = 16 := by decide

theorem witness_ReturnPopsAddress :
    ({ State.reset with sp := 16 } : State).sp.val = (15 : Fin 16).val + 1 ∧
    ({ State.reset with sp := 1 } : State).sp.val = (0 : Fin 16).val + 1 ∧
    State.reset.sp.val = 0 := by decide

/-- The state before the return differs from the one after the call in the slot above, as a matched
nested call leaves it, and in a register. -/
theorem witness_CallThenReturnComesBack :
    ∃ s₁, exec (.call 0x300) State.reset = .next s₁ ∧ State.reset.run = .running ∧
      s₁.run = .running ∧ ∃ s₂ : State, s₂.sp = s₁.sp ∧
        (∀ j : Fin 16, j.val = State.reset.sp.val → s₂.stack[j] = s₁.stack[j]) ∧
        s₂.stack ≠ s₁.stack ∧ s₂.v ≠ s₁.v := by
  refine ⟨_, rfl, rfl, rfl, { State.reset.setV 1 7 with
    sp := 1, stack := (State.reset.stack.set 0 0x202).set 1 0x304 }, ?_⟩
  decide

theorem witness_AddGivesSumAndCarry : (0 : Reg) ≠ VF := by decide

theorem witness_DecimalDigitsAreStored :
    State.reset.mem.wf ∧ (indexed 0xFFD).i.toNat ≤ 0xFFD ∧ 0xFFD < (indexed 0xFFE).i.toNat := by
  decide

theorem witness_RegistersAreStoredAscending :
    State.reset.mem.wf ∧ (indexed 0xFF0).i.toNat + (15 : Reg).val ≤ 0xFFF ∧
    0xFFF < (indexed 0xFF1).i.toNat + (15 : Reg).val := by decide

theorem witness_RegistersAreLoadedAscending :
    (indexed 0xFFF).i.toNat + (0 : Reg).val ≤ 0xFFF ∧
    0xFFF < (indexed 0x1000).i.toNat + (0 : Reg).val := by decide

theorem witness_StoreThenLoadRestoresRegisters :
    let s := (indexed 0xFFE).setV 1 7
    s.mem.wf ∧ s.i.toNat + (1 : Reg).val ≤ 0xFFF ∧
    ∃ t, exec (.storeRegs 1) s = .next t ∧
      ∃ u : State, u.mem = t.mem ∧ u.i = s.i ∧ u.v[(1 : Reg)] ≠ s.v[(1 : Reg)] :=
  ⟨by decide, by decide, _, rfl, State.setV _ 1 0, rfl, rfl, by decide⟩

/-- FX55 at the last next `PC` that can be fetched from: the block ends with the two bytes. -/
theorem witness_StoreIsSeenByNextFetch_both :
    let s : State := { State.reset with pc := 0xFFC, i := 0xFFE }
    s.mem.wf ∧ s.pc.toNat ≤ 0xFFC ∧ s.i.toNat + (1 : Reg).val ≤ 0xFFF ∧
    s.effAddr (0 : Reg).val = s.pc.toNat + 2 ∧ s.effAddr (1 : Reg).val = s.pc.toNat + 3 := by
  decide

/-- FX55 with `X` = 0 covers one byte: the low one, and not the high one. -/
theorem witness_StoreIsSeenByNextFetch_low :
    let s : State := { State.reset with i := 0x203 }
    s.mem.wf ∧ s.pc.toNat ≤ 0xFFC ∧ s.i.toNat + (0 : Reg).val ≤ 0xFFF ∧
    s.effAddr (0 : Reg).val = s.pc.toNat + 3 ∧
    ∀ k : Reg, k ≤ 0 → s.effAddr k.val ≠ s.pc.toNat + 2 := by
  decide

/-- FX33 whose last digit is the high byte: it covers that one, and not the low one. -/
theorem witness_StoreIsSeenByNextFetch_digits :
    let s : State := { State.reset with i := 0x200 }
    s.mem.wf ∧ s.pc.toNat ≤ 0xFFC ∧ s.i.toNat ≤ 0xFFD ∧
    s.effAddr 2 = s.pc.toNat + 2 ∧ ∀ k, k < 3 → s.effAddr k ≠ s.pc.toNat + 3 := by
  decide

/-- FX33 at the last place it can store to, whose last two digits are the two bytes. -/
theorem witness_StoreIsSeenByNextFetch_digits_last :
    let s : State := { State.reset with pc := 0xFFC, i := 0xFFD }
    s.mem.wf ∧ s.pc.toNat ≤ 0xFFC ∧ s.i.toNat ≤ 0xFFD ∧
    s.effAddr 1 = s.pc.toNat + 2 ∧ s.effAddr 2 = s.pc.toNat + 3 := by decide

/-- Both ways to meet the range hypothesis, at their ends. -/
theorem witness_DrawExclusiveOrsSpriteAndReportsCollision :
    (0 : BitVec 4) = 0 ∧ (indexed 0xFF1).i.toNat + (15 : BitVec 4).toNat ≤ 0x1000 := by decide

/-- A display on which the sprite collides, and one on which it does not. -/
theorem witness_DrawExclusiveOrsSpriteAndReportsCollision_clauses :
    (∃ cx cy, cx < 64 ∧ cy < 32 ∧ (lit [(1, 0)] State.reset).disp.cell cx cy = true ∧
      underSprite ((lit [(1, 0)] State.reset).spriteRows 1) 0 0 cx cy = true) ∧
    ∀ cx cy, cx < 64 → cy < 32 → State.reset.disp.cell cx cy = true →
      underSprite (State.reset.spriteRows 1) 0 0 cx cy = false := by
  refine ⟨⟨1, 0, by decide, by decide, by decide, by decide⟩, fun cx cy _ _ h => ?_⟩
  simp [Display.cell, State.reset] at h

theorem witness_DrawingTwiceRestoresDisplay :
    (0 : Reg) ≠ VF ∧ (1 : Reg) ≠ VF ∧ State.reset.i.toNat + (5 : BitVec 4).toNat ≤ 0x1000 ∧
    State.reset.disp = blankDisplay ∧
    ∃ t, exec (.drw 0 1 5) State.reset = .next t ∧ ∃ u, exec (.drw 0 1 5) t = .next u :=
  ⟨by decide, by decide, by decide, rfl, _, rfl, _, rfl⟩

theorem witness_KeySkipsTestSample :
    let s : State := { State.reset.setV 3 15 with keys := 0x8000 }
    let t : State := { State.reset.setV 3 16 with keys := 0xFFFF }
    true = (decide ((s.v[(3 : Reg)]).toNat ≤ 15) && s.keys.getLsbD (s.v[(3 : Reg)]).toNat) ∧
    false = (decide ((t.v[(3 : Reg)]).toNat ≤ 15) && t.keys.getLsbD (t.v[(3 : Reg)]).toNat) := by
  decide

theorem witness_KeyWaitTakesLowestNewKey :
    let s : State := { State.reset with keys := 0x30, kprev := 0x10 }
    s.keys.getLsbD (5 : Fin 16).val = true ∧ s.kprev.getLsbD (5 : Fin 16).val = false ∧
    ∀ j : Fin 16, j < 5 → s.keys.getLsbD j.val = true → s.kprev.getLsbD j.val = true := by decide

theorem witness_KeyWaitStaysWithoutNewKey :
    let s : State := { State.reset with keys := 0x10, kprev := 0x30 }
    ∀ k : Fin 16, s.keys.getLsbD k.val = true → s.kprev.getLsbD k.val = true := by decide

end Sys2Proof.Tests
end

section
/-! Control transfer (spec 40_flow.md): the jump and the skips that compare registers. -/

namespace Sys2Proof.Machine

/-! ### What the arms answer -/

theorem exec_jp (nnn : BitVec 12) (s : State) :
    exec (.jp nnn) s = .next (s.setPc (zextImm nnn)) := rfl

theorem exec_seImm (x : Reg) (nn : Byte) (s : State) :
    exec (.seImm x nn) s = .next (s.skipIf (s.v[x] == nn)) := rfl

theorem exec_sneImm (x : Reg) (nn : Byte) (s : State) :
    exec (.sneImm x nn) s = .next (s.skipIf (s.v[x] != nn)) := rfl

theorem exec_seReg (x y : Reg) (s : State) :
    exec (.seReg x y) s = .next (s.skipIf (s.v[x] == s.v[y])) := rfl

theorem exec_sneReg (x y : Reg) (s : State) :
    exec (.sneReg x y) s = .next (s.skipIf (s.v[x] != s.v[y])) := rfl

/-! ### The program counter after a jump and after a skip -/

/-- Of the targets a jump can name, only 0xFFF cannot be fetched from (R54, R101). -/
theorem State.fetch_setPc_zextImm_eq_none (s : State) (nnn : BitVec 12) :
    (s.setPc (zextImm nnn)).fetch = none ↔ nnn = 0xFFF := by
  have hlt := nnn.isLt
  rw [State.fetch_eq_none, State.setPc_pc, toNat_zextImm, ← BitVec.toNat_inj,
    show (0xFFF : BitVec 12).toNat = 0xFFF from rfl, show Config.memSize = 0x1000 from rfl]
  omega

/-- The 2 of a skip and the 2 of the already advanced `PC` make 4 (R99). -/
theorem State.skipIf_eq (s : State) (c : Bool) :
    s.skipIf c = { s with pc := s.pc + if c then 4 else 2 } := by
  cases c with
  | false => rfl
  | true => exact congrArg s.setPc (BitVec.add_assoc s.pc 2 2)

/-- A skip on equality. -/
theorem State.skipIf_beq (s : State) (a b : Byte) :
    s.skipIf (a == b) = { s with pc := s.pc + if a = b then 4 else 2 } := by
  simp only [State.skipIf_eq, beq_iff_eq]

/-- A skip on inequality. -/
theorem State.skipIf_bne (s : State) (a b : Byte) :
    s.skipIf (a != b) = { s with pc := s.pc + if a = b then 2 else 4 } := by
  simp only [State.skipIf_eq, bne_iff_ne, ne_eq, ite_not]

/-! ### The statements -/

/-- Settles O34: the target is the zero-extended immediate, and of these only 0xFFF leaves no second
byte to fetch. -/
theorem jumpSetsPc : Obligations.JumpSetsPc := by
  intro nnn s
  exact ⟨s.setPc (zextImm nnn), exec_jp nnn s, toNat_zextImm nnn, rfl,
    s.fetch_setPc_zextImm_eq_none nnn⟩

/-- Settles O39: each of the four is a skip on equality or on inequality. -/
theorem skipsCompareRegisters : Obligations.SkipsCompareRegisters := by
  intro x y nn s
  refine ⟨?_, ?_, ?_, ?_⟩
  · rw [exec_seImm, State.skipIf_beq]
  · rw [exec_sneImm, State.skipIf_bne]
  · rw [exec_seReg, State.skipIf_beq]
  · rw [exec_sneReg, State.skipIf_bne]

end Sys2Proof.Machine
end

section
/-! Register loads and logic (spec 41_alu.md R110 to R115): one register is written and `PC` goes on
to the next instruction. -/

namespace Sys2Proof.Machine

/-! ### What the arms answer -/

theorem exec_ldImm (x : Reg) (nn : Byte) (s : State) :
    exec (.ldImm x nn) s = .next (s.setV x nn).advance := rfl

theorem exec_addImm (x : Reg) (nn : Byte) (s : State) :
    exec (.addImm x nn) s = .next (s.setV x (s.v[x] + nn)).advance := rfl

theorem exec_ldReg (x y : Reg) (s : State) :
    exec (.ldReg x y) s = .next (s.setV x s.v[y]).advance := rfl

theorem exec_orReg (x y : Reg) (s : State) :
    exec (.orReg x y) s = .next (s.setV x (s.v[x] ||| s.v[y])).advance := rfl

theorem exec_andReg (x y : Reg) (s : State) :
    exec (.andReg x y) s = .next (s.setV x (s.v[x] &&& s.v[y])).advance := rfl

theorem exec_xorReg (x y : Reg) (s : State) :
    exec (.xorReg x y) s = .next (s.setV x (s.v[x] ^^^ s.v[y])).advance := rfl

/-! ### A register write followed by the advance of `PC` -/

theorem State.onlyRegsAndPc_setV_advance (s : State) (x : Reg) (b : Byte) :
    OnlyRegsAndPc s (s.setV x b).advance := rfl

theorem State.sameRegsBut_setV_advance (s : State) (x : Reg) (b : Byte) :
    SameRegsBut [x] s (s.setV x b).advance := by
  intro r hr
  rw [State.advance_v, State.setV_reg, if_neg (List.ne_of_not_mem_cons hr)]

theorem State.setV_advance_reg_self (s : State) (x : Reg) (b : Byte) :
    (s.setV x b).advance.v[x] = b := by
  rw [State.advance_v, State.setV_reg, if_pos rfl]

/-- An instruction that answers a register write and the advance of `PC` does that and nothing
else, VF being written only where it is the register named. -/
theorem exists_next_of_exec_eq_setV_advance {ins : Instr} {s : State} {x : Reg} {b : Byte}
    (h : exec ins s = .next (s.setV x b).advance) :
    ∃ t, exec ins s = .next t ∧ OnlyRegsAndPc s t ∧ SameRegsBut [x] s t ∧
      t.pc = s.pc + 2 ∧ t.v[x] = b :=
  ⟨_, h, s.onlyRegsAndPc_setV_advance x b, s.sameRegsBut_setV_advance x b, rfl,
    s.setV_advance_reg_self x b⟩

/-! ### The statement -/

/-- Settles O41: each of the six is one register write and the advance of `PC`; the byte sum of 7XNN
is the sum of the numbers modulo 256. -/
theorem loadsAndLogicWriteOneRegister : Obligations.LoadsAndLogicWriteOneRegister := by
  intro x y nn s
  refine ⟨?_, ?_, ?_, ?_, ?_, ?_⟩
  · exact exists_next_of_exec_eq_setV_advance (exec_ldImm x nn s)
  · obtain ⟨t, hnext, hframe, hregs, hpc, hx⟩ :=
      exists_next_of_exec_eq_setV_advance (exec_addImm x nn s)
    exact ⟨t, hnext, hframe, hregs, hpc, by rw [hx, BitVec.toNat_add]⟩
  · exact exists_next_of_exec_eq_setV_advance (exec_ldReg x y s)
  · exact exists_next_of_exec_eq_setV_advance (exec_orReg x y s)
  · exact exists_next_of_exec_eq_setV_advance (exec_andReg x y s)
  · exact exists_next_of_exec_eq_setV_advance (exec_xorReg x y s)

end Sys2Proof.Machine
end

section
/-! Loads of the index register (spec 42_index_memory.md R130, R132): `I` gets one value and `PC` goes
on to the next instruction. -/

namespace Sys2Proof.Machine

/-! ### What the arms answer -/

theorem exec_ldI (nnn : BitVec 12) (s : State) :
    exec (.ldI nnn) s = .next (s.setI (zextImm nnn)).advance := rfl

theorem exec_ldF (x : Reg) (s : State) :
    exec (.ldF x) s =
      .next (s.setI (BitVec.ofNat 16 ((s.v[x]).toNat * Config.glyphStride))).advance := rfl

/-! ### The address of a glyph -/

/-- The offset of the glyph of any byte fits `I`: 255 * 5 is below 65536. -/
theorem toNat_ofNat_mul_glyphStride (b : Byte) :
    (BitVec.ofNat 16 (b.toNat * Config.glyphStride)).toNat = b.toNat * 5 := by
  have hlt := b.isLt
  rw [BitVec.toNat_ofNat, show Config.glyphStride = 5 from rfl]
  omega

/-! ### A write of `I` followed by the advance of `PC` -/

theorem State.setI_advance_eq (s : State) (w : Word) :
    (s.setI w).advance = { s with i := w, pc := s.pc + 2 } := rfl

/-- An instruction that answers a write of `I` and the advance of `PC` does that and nothing else. -/
theorem exists_next_of_exec_eq_setI_advance {ins : Instr} {s : State} {w : Word} {n : Nat}
    (h : exec ins s = .next (s.setI w).advance) (hw : w.toNat = n) :
    ∃ t, exec ins s = .next t ∧ t = { s with i := t.i, pc := s.pc + 2 } ∧ t.i.toNat = n :=
  ⟨_, h, s.setI_advance_eq w, hw⟩

/-! ### The statement -/

/-- Settles O47: ANNN loads the zero-extended immediate, FX29 the offset of the glyph of `V[X]`. -/
theorem indexLoadsAreExact : Obligations.IndexLoadsAreExact := by
  intro nnn x s
  exact ⟨exists_next_of_exec_eq_setI_advance (exec_ldI nnn s) (toNat_zextImm nnn),
    exists_next_of_exec_eq_setI_advance (exec_ldF x s) (toNat_ofNat_mul_glyphStride s.v[x])⟩

end Sys2Proof.Machine
end

section
/-! Clearing the display (spec 43_display.md R140): `DISP` becomes blank and `PC` goes on to the next
instruction. -/

namespace Sys2Proof.Machine

/-! ### What the arm answers -/

theorem exec_cls (s : State) : exec .cls s = .next (s.setDisp blankDisplay).advance := rfl

/-! ### A write of `DISP` followed by the advance of `PC` -/

theorem State.setDisp_advance_eq (s : State) (d : Display) :
    (s.setDisp d).advance = { s with disp := d, pc := s.pc + 2 } := rfl

/-! ### The statement -/

/-- Settles O54: 00E0 writes the blank display, whose cells are all off, and advances `PC`. -/
theorem clearTurnsEveryCellOff : Obligations.ClearTurnsEveryCellOff := by
  intro s
  refine ⟨_, exec_cls s, s.setDisp_advance_eq blankDisplay, fun x y _ _ => ?_⟩
  rw [State.advance_disp, State.setDisp_disp, cell_blankDisplay]

end Sys2Proof.Machine
end

section
/-! The timer instructions (spec 45_timers.md R160 to R162): one byte is copied between `V[X]` and a
timer, and `PC` goes on to the next instruction. -/

namespace Sys2Proof.Machine

/-! ### What the arms answer -/

theorem exec_ldVxDt (x : Reg) (s : State) :
    exec (.ldVxDt x) s = .next (s.setV x s.dt).advance := rfl

theorem exec_ldDtVx (x : Reg) (s : State) :
    exec (.ldDtVx x) s = .next (s.setDt s.v[x]).advance := rfl

theorem exec_ldStVx (x : Reg) (s : State) :
    exec (.ldStVx x) s = .next (s.setSt s.v[x]).advance := rfl

/-! ### A write of a timer followed by the advance of `PC` -/

theorem State.setDt_advance_eq (s : State) (b : Byte) :
    (s.setDt b).advance = { s with dt := b, pc := s.pc + 2 } := rfl

theorem State.setSt_advance_eq (s : State) (b : Byte) :
    (s.setSt b).advance = { s with st := b, pc := s.pc + 2 } := rfl

/-! ### The tone -/

/-- The tone is on exactly while the sound timer is not 0 (R10, R185). -/
theorem State.tone_eq_true_iff (s : State) : s.tone = true ↔ s.st ≠ 0 := by
  rw [State.tone, decide_eq_true_iff, gt_iff_lt, Nat.pos_iff_ne_zero]
  exact BitVec.toNat_ne_iff_ne (y := 0)

/-! ### The statement -/

/-- Settles O60: FX07 is one register write, FX15 and FX18 one write of a timer, each with the
advance of `PC`; after FX18 the sound timer, and so the tone, is what `V[X]` says. -/
theorem timerInstructionsCopyBytes : Obligations.TimerInstructionsCopyBytes := by
  intro x s
  refine ⟨?_, ?_, ?_⟩
  · exact exists_next_of_exec_eq_setV_advance (exec_ldVxDt x s)
  · rw [exec_ldDtVx, State.setDt_advance_eq]
  · refine ⟨_, exec_ldStVx x s, s.setSt_advance_eq s.v[x], ?_⟩
    rw [State.tone_eq_true_iff, State.advance_st, State.setSt_st]

end Sys2Proof.Machine
end

section
/-! Encoding and decoding (spec 30_encoding.md R70 to R78): the decoder undoes the encoder and accepts
nothing else, and it agrees with the table of masks and matches. -/

namespace Sys2Proof

/-! ### Decoding what was encoded -/

theorem decode_of_opNibble_zero {w : Word} (h : opNibble w = 0x0) : decode w = decode0 w := by
  simp [decode, h]

/-- The decoder reads back every field the format of the instruction was built with. -/
theorem decode_encode {i : Instr} (h : i.wellFormed = true) : decode (encode i) = .ok i := by
  cases i with
  | cls | ret => rfl
  | jp _ | call _ | ldI _ | jpV0 _ | seImm _ _ | sneImm _ _ | ldImm _ _ | addImm _ _ | rnd _ _
  | seReg _ _ | sneReg _ _ | drw _ _ _ => simp [encode, decode]
  | ldReg _ _ | orReg _ _ | andReg _ _ | xorReg _ _ | addReg _ _ | subReg _ _ | shr _ _
  | subnReg _ _ | shl _ _ => simp [encode, decode, decode8]
  | skp _ | sknp _ => simp [encode, decode, decodeE]
  | ldVxDt _ | ldDtVx _ | ldStVx _ | addI _ | ldKey _ | ldF _ | ldB _ | storeRegs _ | loadRegs _ =>
    simp [encode, decode, decodeF]
  | sys nnn =>
    obtain ⟨hcls, hret⟩ : nnn ≠ 0x0E0#12 ∧ nnn ≠ 0x0EE#12 := by simpa [Instr.wellFormed] using h
    rw [encode, decode_of_opNibble_zero (opNibble_formatNNN _ _), decode0, fieldNNN_formatNNN]
    split
    · exact absurd rfl hcls
    · exact absurd rfl hret
    · rfl

/-! ### A word whose fixed fields are known is its format -/

theorem formatNNN_of_fields {w : Word} {op : BitVec 4} {nnn : BitVec 12} (hop : opNibble w = op)
    (hnnn : fieldNNN w = nnn) : formatNNN op nnn = w := by
  rw [← hop, ← hnnn, formatNNN_fields]

theorem formatXNN_of_fields {w : Word} {op : BitVec 4} {nn : Byte} (hop : opNibble w = op)
    (hnn : fieldNN w = nn) : formatXNN op (fieldX w) nn = w := by
  rw [← hop, ← hnn, formatXNN_fields]

theorem formatXYN_of_fields {w : Word} {op n : BitVec 4} (hop : opNibble w = op)
    (hn : fieldN w = n) : formatXYN op (fieldX w) (fieldY w) n = w := by
  rw [← hop, ← hn, formatXYN_fields]

/-! ### What was decoded is encoded again, by the two levels of the dispatch (R75) -/

/-- The instruction is well-formed and its opcode is `w`. -/
def Instr.encodesTo (i : Instr) (w : Word) : Prop := i.wellFormed = true ∧ encode i = w

theorem encodesTo_of_decode0 {w : Word} {i : Instr} (hop : opNibble w = 0x0)
    (h : decode0 w = .ok i) : i.encodesTo w := by
  unfold decode0 at h
  split at h
  case h_1 hf | h_2 hf => cases h; exact ⟨rfl, formatNNN_of_fields hop hf⟩
  case h_3 hcls hret =>
    cases h
    exact ⟨Bool.and_eq_true_iff.mpr ⟨bne_iff_ne.mpr hcls, bne_iff_ne.mpr hret⟩,
      formatNNN_of_fields hop rfl⟩

theorem encodesTo_of_decode8 {w : Word} {i : Instr} (hop : opNibble w = 0x8)
    (h : decode8 w = .ok i) : i.encodesTo w := by
  unfold decode8 at h
  split at h <;> rename_i hf <;> cases h <;> exact ⟨rfl, formatXYN_of_fields hop hf⟩

theorem encodesTo_of_decodeE {w : Word} {i : Instr} (hop : opNibble w = 0xE)
    (h : decodeE w = .ok i) : i.encodesTo w := by
  unfold decodeE at h
  split at h <;> rename_i hf <;> cases h <;> exact ⟨rfl, formatXNN_of_fields hop hf⟩

theorem encodesTo_of_decodeF {w : Word} {i : Instr} (hop : opNibble w = 0xF)
    (h : decodeF w = .ok i) : i.encodesTo w := by
  unfold decodeF at h
  split at h <;> rename_i hf <;> cases h <;> exact ⟨rfl, formatXNN_of_fields hop hf⟩

/-- The last arm of the first level is nibble F. -/
theorem nibble_eq_F_of_ne {b : BitVec 4}
    (h : ∀ k ∈ [0x0#4, 0x1, 0x2, 0x3, 0x4, 0x5, 0x6, 0x7, 0x8, 0x9, 0xA, 0xB, 0xC, 0xD, 0xE],
      b ≠ k) : b = 0xF := by
  decide +revert

/-- The decoder accepts only opcodes of well-formed instructions. -/
theorem encodesTo_of_decode {w : Word} {i : Instr} (h : decode w = .ok i) : i.encodesTo w := by
  unfold decode at h
  split at h
  case h_1 hop => exact encodesTo_of_decode0 hop h
  case h_2 hop | h_3 hop | h_11 hop | h_12 hop =>
    cases h; exact ⟨rfl, formatNNN_of_fields hop rfl⟩
  case h_4 hop | h_5 hop | h_7 hop | h_8 hop | h_13 hop =>
    cases h; exact ⟨rfl, formatXNN_of_fields hop rfl⟩
  case h_6 hop | h_10 hop =>
    split at h <;> cases h
    exact ⟨rfl, formatXYN_of_fields hop ‹_›⟩
  case h_9 hop => exact encodesTo_of_decode8 hop h
  case h_14 hop => cases h; exact ⟨rfl, formatXYN_of_fields hop rfl⟩
  case h_15 hop => exact encodesTo_of_decodeE hop h
  case h_16 => exact encodesTo_of_decodeF (nibble_eq_F_of_ne (by simp; tauto)) h

/-! ### The table of masks and matches (R74) -/

/-- Two rows whose matches differ on a bit both masks ask for have no opcode in common. -/
theorem OpcodeRow.not_selects_both {r q : OpcodeRow} (h : r.bits &&& q.mask ≠ q.bits &&& r.mask)
    (w : Word) : ¬(r.selects w = true ∧ q.selects w = true) := by
  rintro ⟨hr, hq⟩
  rw [OpcodeRow.selects, beq_iff_eq] at hr hq
  exact h (by rw [← hr, ← hq, BitVec.and_assoc, BitVec.and_assoc, BitVec.and_comm r.mask])

/-- The opcode of a well-formed instruction selects its row. -/
theorem Instr.row_selects_encode {i : Instr} (h : i.wellFormed = true) :
    i.row.selects (encode i) = true := by
  cases i with
  | cls => exact Laws.RowMatch.cls h
  | ret => exact Laws.RowMatch.ret h
  | jp _ => exact Laws.RowMatch.jp _ h
  | call _ => exact Laws.RowMatch.call _ h
  | seImm _ _ => exact Laws.RowMatch.seImm _ _ h
  | sneImm _ _ => exact Laws.RowMatch.sneImm _ _ h
  | seReg _ _ => exact Laws.RowMatch.seReg _ _ h
  | ldImm _ _ => exact Laws.RowMatch.ldImm _ _ h
  | addImm _ _ => exact Laws.RowMatch.addImm _ _ h
  | ldReg _ _ => exact Laws.RowMatch.ldReg _ _ h
  | orReg _ _ => exact Laws.RowMatch.orReg _ _ h
  | andReg _ _ => exact Laws.RowMatch.andReg _ _ h
  | xorReg _ _ => exact Laws.RowMatch.xorReg _ _ h
  | addReg _ _ => exact Laws.RowMatch.addReg _ _ h
  | subReg _ _ => exact Laws.RowMatch.subReg _ _ h
  | shr _ _ => exact Laws.RowMatch.shr _ _ h
  | subnReg _ _ => exact Laws.RowMatch.subnReg _ _ h
  | shl _ _ => exact Laws.RowMatch.shl _ _ h
  | sneReg _ _ => exact Laws.RowMatch.sneReg _ _ h
  | ldI _ => exact Laws.RowMatch.ldI _ h
  | jpV0 _ => exact Laws.RowMatch.jpV0 _ h
  | rnd _ _ => exact Laws.RowMatch.rnd _ _ h
  | drw _ _ _ => exact Laws.RowMatch.drw _ _ _ h
  | skp _ => exact Laws.RowMatch.skp _ h
  | sknp _ => exact Laws.RowMatch.sknp _ h
  | ldVxDt _ => exact Laws.RowMatch.ldVxDt _ h
  | ldDtVx _ => exact Laws.RowMatch.ldDtVx _ h
  | ldStVx _ => exact Laws.RowMatch.ldStVx _ h
  | addI _ => exact Laws.RowMatch.addI _ h
  | ldKey _ => exact Laws.RowMatch.ldKey _ h
  | ldF _ => exact Laws.RowMatch.ldF _ h
  | ldB _ => exact Laws.RowMatch.ldB _ h
  | storeRegs _ => exact Laws.RowMatch.storeRegs _ h
  | loadRegs _ => exact Laws.RowMatch.loadRegs _ h
  | sys _ => exact Laws.RowMatch.sys _ h

theorem Instr.rowIndex_lt_of_defined {i : Instr} (h : i.defined = true) : i.rowIndex < 34 := by
  cases i with
  | sys _ => cases h
  | _ => simp only [Instr.rowIndex, Nat.reduceLT]

/-- The row of a defined instruction is one of the 34. -/
theorem Instr.row_mem_of_defined {i : Instr} (h : i.defined = true) : i.row ∈ opcodeMap := by
  have hlt : i.rowIndex < opcodeMap.length := i.rowIndex_lt_of_defined h
  rw [Instr.row, List.getD_eq_getElem _ _ hlt]
  exact List.getElem_mem hlt

/-- Row 35 is the row of the undefined instructions. -/
theorem Instr.row_eq_sysRow_of_not_defined {i : Instr} (h : i.defined = false) :
    i.row = sysRow := by
  cases i with
  | sys _ => rfl
  | _ => cases h

/-! ### A field the mask of a row asks for is that of the row's match -/

theorem opNibble_of_selects {r : OpcodeRow} {w : Word} (h : r.selects w = true)
    (hm : opNibble r.mask = 0xF) : opNibble w = opNibble r.bits := by
  calc opNibble w = opNibble w &&& opNibble r.mask := by rw [hm]; exact (and_nibble_ones _).symm
    _ = opNibble (w &&& r.mask) := BitVec.extractLsb'_and.symm
    _ = opNibble r.bits := by rw [beq_iff_eq.mp h]

theorem fieldN_of_selects {r : OpcodeRow} {w : Word} (h : r.selects w = true)
    (hm : fieldN r.mask = 0xF) : fieldN w = fieldN r.bits := by
  calc fieldN w = fieldN w &&& fieldN r.mask := by rw [hm]; exact (and_nibble_ones _).symm
    _ = fieldN (w &&& r.mask) := BitVec.extractLsb'_and.symm
    _ = fieldN r.bits := by rw [beq_iff_eq.mp h]

theorem fieldNN_of_selects {r : OpcodeRow} {w : Word} (h : r.selects w = true)
    (hm : fieldNN r.mask = 0xFF) : fieldNN w = fieldNN r.bits := by
  calc fieldNN w = fieldNN w &&& fieldNN r.mask := by rw [hm]; exact (and_byte_ones _).symm
    _ = fieldNN (w &&& r.mask) := BitVec.extractLsb'_and.symm
    _ = fieldNN r.bits := by rw [beq_iff_eq.mp h]

/-! ### An opcode that selects one of the 34 rows decodes to a defined instruction -/

/-- The opcode decodes to one of the 34 instructions. -/
def DecodesDefined (w : Word) : Prop := ∃ i, decode w = .ok i ∧ i.defined = true

/-- The nibbles whose instructions have no further fixed field. -/
def openNibbles : List (BitVec 4) := [0x1, 0x2, 0x3, 0x4, 0x6, 0x7, 0xA, 0xB, 0xC, 0xD]

/-- The nibbles 5, 8 and 9 with the values of `N` they fix. -/
def nibblesWithN : List (BitVec 4 × BitVec 4) :=
  [(0x5, 0x0), (0x8, 0x0), (0x8, 0x1), (0x8, 0x2), (0x8, 0x3), (0x8, 0x4), (0x8, 0x5), (0x8, 0x6),
   (0x8, 0x7), (0x8, 0xE), (0x9, 0x0)]

/-- The nibbles E and F with the values of `NN` they fix. -/
def nibblesWithNN : List (BitVec 4 × Byte) :=
  [(0xE, 0x9E), (0xE, 0xA1), (0xF, 0x07), (0xF, 0x0A), (0xF, 0x15), (0xF, 0x18), (0xF, 0x1E),
   (0xF, 0x29), (0xF, 0x33), (0xF, 0x55), (0xF, 0x65)]

theorem decodesDefined_of_openNibbles {w : Word} (h : opNibble w ∈ openNibbles) :
    DecodesDefined w := by
  simp only [openNibbles, List.mem_cons, List.not_mem_nil, or_false] at h
  rcases h with h | h | h | h | h | h | h | h | h | h <;>
    exact ⟨_, by simp only [decode, h]; rfl, rfl⟩

theorem decodesDefined_of_nibblesWithN {w : Word} (h : (opNibble w, fieldN w) ∈ nibblesWithN) :
    DecodesDefined w := by
  simp only [nibblesWithN, List.mem_cons, List.not_mem_nil, or_false, Prod.mk.injEq] at h
  rcases h with ⟨h, hn⟩ | ⟨h, hn⟩ | ⟨h, hn⟩ | ⟨h, hn⟩ | ⟨h, hn⟩ | ⟨h, hn⟩ | ⟨h, hn⟩ | ⟨h, hn⟩ |
      ⟨h, hn⟩ | ⟨h, hn⟩ | ⟨h, hn⟩ <;>
    exact ⟨_, by simp only [decode, h, decode8, hn]; rfl, rfl⟩

theorem decodesDefined_of_nibblesWithNN {w : Word} (h : (opNibble w, fieldNN w) ∈ nibblesWithNN) :
    DecodesDefined w := by
  simp only [nibblesWithNN, List.mem_cons, List.not_mem_nil, or_false, Prod.mk.injEq] at h
  rcases h with ⟨h, hn⟩ | ⟨h, hn⟩ | ⟨h, hn⟩ | ⟨h, hn⟩ | ⟨h, hn⟩ | ⟨h, hn⟩ | ⟨h, hn⟩ | ⟨h, hn⟩ |
      ⟨h, hn⟩ | ⟨h, hn⟩ | ⟨h, hn⟩ <;>
    exact ⟨_, by simp only [decode, h, decodeE, decodeF, hn]; rfl, rfl⟩

/-- Every row fixes a whole word (00E0, 00EE), a nibble alone, or a nibble with `N` or `NN`. -/
theorem opcodeMap_kinds : ∀ r ∈ opcodeMap, opNibble r.mask = 0xF ∧
    ((r.mask = 0xFFFF ∧ (r.bits = 0x00E0 ∨ r.bits = 0x00EE)) ∨ opNibble r.bits ∈ openNibbles ∨
      (fieldN r.mask = 0xF ∧ (opNibble r.bits, fieldN r.bits) ∈ nibblesWithN) ∨
      (fieldNN r.mask = 0xFF ∧ (opNibble r.bits, fieldNN r.bits) ∈ nibblesWithNN)) := by
  decide

theorem decodesDefined_of_selects {r : OpcodeRow} {w : Word} (hr : r ∈ opcodeMap)
    (h : r.selects w = true) : DecodesDefined w := by
  obtain ⟨hop, hkind⟩ := opcodeMap_kinds r hr
  have hop := opNibble_of_selects h hop
  rcases hkind with ⟨hm, hb⟩ | hb | ⟨hm, hb⟩ | ⟨hm, hb⟩
  · have hw : w = r.bits := by
      rw [← beq_iff_eq.mp h, hm]; exact BitVec.and_allOnes.symm
    rcases hb with hb | hb
    · exact ⟨.cls, by rw [hw, hb]; decide, rfl⟩
    · exact ⟨.ret, by rw [hw, hb]; decide, rfl⟩
  · exact decodesDefined_of_openNibbles (hop ▸ hb)
  · exact decodesDefined_of_nibblesWithN (by rwa [hop, fieldN_of_selects h hm])
  · exact decodesDefined_of_nibblesWithNN (by rwa [hop, fieldNN_of_selects h hm])

/-! ### Acceptance and the map -/

theorem row_selects_of_decode {w : Word} {i : Instr} (h : decode w = .ok i) :
    i.row.selects w = true := by
  obtain ⟨hwf, rfl⟩ := encodesTo_of_decode h
  exact i.row_selects_encode hwf

theorem decodesDefined_iff_selects {w : Word} :
    DecodesDefined w ↔ ∃ r ∈ opcodeMap, r.selects w = true := by
  constructor
  · rintro ⟨i, hi, hdef⟩
    exact ⟨i.row, i.row_mem_of_defined hdef, row_selects_of_decode hi⟩
  · rintro ⟨r, hr, h⟩
    exact decodesDefined_of_selects hr h

/-- A word of row 35 or of rows 1 and 2 is accepted: nibble 0 rejects nothing. -/
theorem decode_of_sysRow {w : Word} (h : sysRow.selects w = true) : ∃ i, decode w = .ok i := by
  rw [decode_of_opNibble_zero (opNibble_of_selects h (by decide)), decode0]
  split <;> exact ⟨_, rfl⟩

/-- The decoder on a whole opcode knows one error (R78). -/
theorem decode_error {w : Word} {r : Reject} (h : decode w = .error r) : r = .invalidOpcode := by
  unfold decode decode0 decode8 decodeE decodeF at h
  split at h <;> (try split at h) <;> cases h <;> rfl

/-- The decoder rejects exactly the words that select no row of the map, row 35 included. -/
theorem decode_eq_error_iff {w : Word} : decode w = .error .invalidOpcode ↔
    sysRow.selects w = false ∧ ∀ r ∈ opcodeMap, r.selects w = false := by
  constructor
  · intro h
    refine ⟨Bool.eq_false_iff.mpr fun hs => ?_, fun r hr => Bool.eq_false_iff.mpr fun hs => ?_⟩
    · obtain ⟨i, hi⟩ := decode_of_sysRow hs
      rw [h] at hi; cases hi
    · obtain ⟨i, hi, -⟩ := decodesDefined_of_selects hr hs
      rw [h] at hi; cases hi
  · rintro ⟨hsys, hmap⟩
    cases hd : decode w with
    | error r => rw [decode_error hd]
    | ok i =>
      have hrow := row_selects_of_decode hd
      cases hdef : i.defined with
      | true => rw [hmap _ (i.row_mem_of_defined hdef)] at hrow; cases hrow
      | false => rw [i.row_eq_sysRow_of_not_defined hdef, hsys] at hrow; cases hrow

/-! ### The statements -/

/-- Settles O1: 35 opcodes and twelve near misses, each decoded. -/
theorem specExampleWordsDecode : Obligations.SpecExampleWordsDecode := by
  unfold Obligations.SpecExampleWordsDecode
  decide

/-- Settles O2: the decoder reads back the fields the encoder wrote. -/
theorem decodeOfEncodeIsIdentity : Obligations.DecodeOfEncodeIsIdentity :=
  fun _ => decode_encode

/-- Settles O3: each level of the dispatch fixes the fields the format of its instruction fixes. -/
theorem encodeOfDecodeIsIdentity : Obligations.EncodeOfDecodeIsIdentity :=
  fun _ _ => encodesTo_of_decode

/-- Settles O4: any two of the 34 rows differ on a bit that both masks ask for. -/
theorem opcodeRowsAreDisjoint : Obligations.OpcodeRowsAreDisjoint := by
  have hdiff : opcodeMap.Pairwise fun r q => r.bits &&& q.mask ≠ q.bits &&& r.mask := by decide
  exact ⟨rfl, hdiff.imp OpcodeRow.not_selects_both⟩

/-- Settles O5: the three clauses, for the accepted opcodes, the 34 rows and the rejected ones. -/
theorem decoderFollowsOpcodeMap : Obligations.DecoderFollowsOpcodeMap :=
  fun _ => ⟨fun _ => row_selects_of_decode, decodesDefined_iff_selects, decode_eq_error_iff⟩

end Sys2Proof
end

section
/-! What an instruction leaves behind when it raises nothing, and that with the table of causes
(spec 60_exceptions.md R173) this is the whole of `exec`. -/

namespace Sys2Proof.Machine

/-- The drawing of DXYN: the `N` rows from `I` on (R141). -/
def State.drawing (s : State) (x y : Reg) (n : BitVec 4) : Canvas :=
  s.drawSprite x y (s.spriteRows n.toNat)

/-- The state after an instruction that raises nothing; `exec_of_completes` ties it to `exec`. -/
def State.completed (s : State) : Instr → State
  | .cls => (s.setDisp blankDisplay).advance
  | .ret => { s with sp := ⟨s.sp.val - 1, by omega⟩, pc := s.stack[s.sp.val - 1]'(by omega) }
  | .jp nnn => s.setPc (zextImm nnn)
  | .call nnn =>
    { s with stack := s.stack.setIfInBounds s.sp.val s.npc, sp := s.sp + 1, pc := zextImm nnn }
  | .seImm x nn => s.skipIf (s.v[x] == nn)
  | .sneImm x nn => s.skipIf (s.v[x] != nn)
  | .seReg x y => s.skipIf (s.v[x] == s.v[y])
  | .ldImm x nn => (s.setV x nn).advance
  | .addImm x nn => (s.setV x (s.v[x] + nn)).advance
  | .ldReg x y => (s.setV x s.v[y]).advance
  | .orReg x y => (s.setV x (s.v[x] ||| s.v[y])).advance
  | .andReg x y => (s.setV x (s.v[x] &&& s.v[y])).advance
  | .xorReg x y => (s.setV x (s.v[x] ^^^ s.v[y])).advance
  | .addReg x y => (s.setFlagThenResult x (carryFlag s.v[x] s.v[y]) (s.v[x] + s.v[y])).advance
  | .subReg x y => (s.setFlagThenResult x (greaterFlag s.v[x] s.v[y]) (s.v[x] - s.v[y])).advance
  | .shr x _ => (s.setFlagThenResult x (lowBitFlag s.v[x]) (s.v[x] >>> 1)).advance
  | .subnReg x y => (s.setFlagThenResult x (greaterFlag s.v[y] s.v[x]) (s.v[y] - s.v[x])).advance
  | .shl x _ => (s.setFlagThenResult x (highBitFlag s.v[x]) (s.v[x] <<< 1)).advance
  | .sneReg x y => s.skipIf (s.v[x] != s.v[y])
  | .ldI nnn => (s.setI (zextImm nnn)).advance
  | .jpV0 nnn => s.setPc (zextImm nnn + zextByte s.v[(0 : Reg)])
  | .rnd x nn => (s.setV x (s.rnd &&& nn)).advance
  | .drw x y n =>
    ((s.setDisp (s.drawing x y n).disp).setV VF (collisionFlag (s.drawing x y n))).advance
  | .skp x => s.skipIf (s.pressed s.v[x])
  | .sknp x => s.skipIf (!s.pressed s.v[x])
  | .ldVxDt x => (s.setV x s.dt).advance
  | .ldDtVx x => (s.setDt s.v[x]).advance
  | .ldStVx x => (s.setSt s.v[x]).advance
  | .addI x => (s.setI (s.i + zextByte s.v[x])).advance
  | .ldKey x =>
    { s with v := s.newKey.elim s.v (s.v.set x ·), pc := s.newKey.elim s.pc fun _ => s.npc }
  | .ldF x => (s.setI (BitVec.ofNat 16 ((s.v[x]).toNat * Config.glyphStride))).advance
  | .ldB x => { s with mem := s.mem.writeBytes s.i.toNat (decimalDigits s.v[x]), pc := s.npc }
  | .storeRegs x => { s with mem := s.mem.writeBytes s.i.toNat (s.regsUpTo x), pc := s.npc }
  | .loadRegs x =>
    { s with
      v := putRegs s.v 0 ((List.range (x.val + 1)).map fun k => s.mem.readByte (s.i.toNat + k))
      pc := s.npc }
  | .sys _ => s

variable {i : Instr} {s t : State}

/-! ### FX0A by its two cases (R152) -/

theorem State.completed_ldKey_of_some {x : Reg} {b : Byte} (h : s.newKey = some b) :
    s.completed (.ldKey x) = (s.setV x b).advance := by
  rw [State.completed, h]; rfl

theorem State.completed_ldKey_of_none {x : Reg} (h : s.newKey = none) :
    s.completed (.ldKey x) = s := by
  rw [State.completed, h]; rfl

/-! ### The whole of `exec` -/

/-- An instruction that raises a condition halts with it and changes nothing else (R171, R173). -/
theorem exec_of_raises {c : Condition} (h : fatalCause i s = some c) :
    exec i s = .next { s with run := .halted c } := by
  cases i with
  | ret =>
    obtain ⟨hsp, ⟨⟩⟩ := Option.ite_none_right_eq_some.mp h
    exact execRet_eq_next.mpr (.inr ⟨hsp, rfl⟩)
  | call nnn =>
    obtain ⟨hsp, ⟨⟩⟩ := Option.ite_none_right_eq_some.mp h
    exact execCall_eq_next.mpr (.inr ⟨hsp, rfl⟩)
  | drw x y n =>
    obtain ⟨⟨hn, hi⟩, ⟨⟩⟩ := Option.ite_none_right_eq_some.mp h
    exact execDrw_eq_next.mpr (.inr ⟨by omega, rfl⟩)
  | ldB x =>
    obtain ⟨hi, ⟨⟩⟩ := Option.ite_none_right_eq_some.mp h
    exact execLdB_eq_next.mpr (.inr ⟨by omega, rfl⟩)
  | storeRegs x =>
    obtain ⟨hi, ⟨⟩⟩ := Option.ite_none_right_eq_some.mp h
    exact execStoreRegs_eq_next.mpr (.inr ⟨by omega, rfl⟩)
  | loadRegs x =>
    obtain ⟨hi, ⟨⟩⟩ := Option.ite_none_right_eq_some.mp h
    exact execLoadRegs_eq_next.mpr (.inr ⟨by omega, rfl⟩)
  | sys nnn => cases h; rfl
  | _ => cases h

/-- An instruction that raises nothing completes. -/
theorem exec_of_completes (h : fatalCause i s = none) : exec i s = .next (s.completed i) := by
  cases i with
  | ret =>
    have hsp : s.sp.val ≠ 0 := by simpa [fatalCause] using h
    exact execRet_eq_next.mpr (.inl ⟨by omega, rfl⟩)
  | call nnn =>
    have hsp : s.sp.val ≠ 16 := by simpa [fatalCause] using h
    have hlt : s.sp.val < 16 := by omega
    have hsp' : s.sp + 1 = ⟨s.sp.val + 1, by omega⟩ := Fin.ext (by simp [Fin.val_add]; omega)
    have hstack : s.stack.setIfInBounds s.sp.val s.npc = s.stack.set s.sp.val s.npc :=
      Vector.ext fun j hj => by rw [Vector.getElem_setIfInBounds, Vector.getElem_set]
    exact execCall_eq_next.mpr (.inl ⟨hlt, by rw [State.completed, hsp', hstack]⟩)
  | drw x y n =>
    have hn : ¬(1 ≤ n.toNat ∧ s.i.toNat + n.toNat - 1 > 0xFFF) := by simpa [fatalCause] using h
    exact execDrw_eq_next.mpr (.inl ⟨by omega, _, rfl, rfl⟩)
  | ldB x =>
    have hi : ¬(s.i.toNat + 2 > 0xFFF) := by simpa [fatalCause] using h
    exact execLdB_eq_next.mpr (.inl ⟨by omega, rfl⟩)
  | storeRegs x =>
    have hi : ¬(s.i.toNat + x.val > 0xFFF) := by simpa [fatalCause] using h
    exact execStoreRegs_eq_next.mpr (.inl ⟨by omega, rfl⟩)
  | loadRegs x =>
    have hi : ¬(s.i.toNat + x.val > 0xFFF) := by simpa [fatalCause] using h
    exact execLoadRegs_eq_next.mpr (.inl ⟨by omega, rfl⟩)
  | ldKey x =>
    rcases s.awaitKey_cases x with ⟨b, hk, ha⟩ | ⟨hk, ha⟩
    · rw [State.completed_ldKey_of_some hk, ← ha]; rfl
    · rw [State.completed_ldKey_of_none hk]; exact congrArg _ ha
  | sys nnn => cases h
  | _ => rfl

/-- All an instruction can do: raise the condition of the table, or complete. -/
theorem exec_cases (h : exec i s = .next t) :
    (∃ c, fatalCause i s = some c ∧ t = { s with run := .halted c }) ∨
    (fatalCause i s = none ∧ t = s.completed i) := by
  cases hc : fatalCause i s with
  | some c =>
    rw [exec_of_raises hc] at h; cases h
    exact .inl ⟨c, rfl, rfl⟩
  | none =>
    rw [exec_of_completes hc] at h; cases h
    exact .inr ⟨rfl, rfl⟩

/-! ### What no instruction changes (R34, R35) -/

@[simp] theorem State.completed_run : (s.completed i).run = s.run := by cases i <;> rfl
@[simp] theorem State.completed_kprev : (s.completed i).kprev = s.kprev := by cases i <;> rfl
@[simp] theorem State.completed_keys : (s.completed i).keys = s.keys := by cases i <;> rfl
@[simp] theorem State.completed_rnd : (s.completed i).rnd = s.rnd := by cases i <;> rfl
@[simp] theorem State.completed_schedule : (s.completed i).schedule = s.schedule := by
  cases i <;> rfl
@[simp] theorem State.completed_eventCount : (s.completed i).eventCount = s.eventCount := by
  cases i <;> rfl
@[simp] theorem State.completed_loadable : (s.completed i).loadable = s.loadable := by
  cases i <;> rfl
@[simp] theorem State.completed_loadReport : (s.completed i).loadReport = s.loadReport := by
  cases i <;> rfl

/-! ### Consequences for what changed and for two runs -/

/-- An instruction of a running core that leaves it running has completed. -/
theorem completed_of_running (h : exec i s = .next t) (hr : t.run = .running) :
    fatalCause i s = none ∧ t = s.completed i := by
  rcases exec_cases h with ⟨c, -, rfl⟩ | hdone
  · cases hr
  · exact hdone

/-- An instruction that changed something other than `RUN` has completed. -/
theorem completed_of_changed {α : Type} (f : State → α) (h : exec i s = .next t)
    (hne : f t ≠ f s) (hrun : ∀ c, f { s with run := .halted c } = f s) : t = s.completed i := by
  rcases exec_cases h with ⟨c, -, rfl⟩ | ⟨-, hdone⟩
  · exact absurd (hrun c) hne
  · exact hdone

/-- A change `g` of a state that an instruction neither reads nor writes commutes with it. -/
theorem exec_of_commutes {g : State → State} (hcause : fatalCause i (g s) = fatalCause i s)
    (hhalt : ∀ c, { g s with run := .halted c } = g { s with run := .halted c })
    (hdone : (g s).completed i = g (s.completed i)) (h : exec i s = .next t) :
    exec i (g s) = .next (g t) := by
  rcases exec_cases h with ⟨c, hc, rfl⟩ | ⟨hc, rfl⟩
  · rw [exec_of_raises (hcause.trans hc), hhalt]
  · rw [exec_of_completes (hcause.trans hc), hdone]

end Sys2Proof.Machine
end

section
/-! What instructions write and read: the frames of the general registers, the special registers, the
stack and memory (spec 10_state.md R20 to R34, 20_memory.md R51), and the inputs an instruction does
not look at (41_alu.md R122, 44_input.md). -/

namespace Sys2Proof.Machine

variable {i : Instr} {s t : State}

/-! ### General registers -/

theorem eq_of_getReg_set_ne {v : Vector Byte 16} {x r : Reg} {b : Byte} (h : (v.set x b)[r] ≠ v[r]) :
    r = x := by
  rw [getReg_set] at h
  by_contra hne
  exact h (if_neg hne)

theorem eq_or_eq_of_getReg_set_set_ne {v : Vector Byte 16} {x y r : Reg} {a b : Byte}
    (h : ((v.set y a).set x b)[r] ≠ v[r]) : r = x ∨ r = y := by
  by_contra hne
  obtain ⟨hx, hy⟩ := not_or.mp hne
  rw [getReg_set, if_neg hx, getReg_set, if_neg hy] at h
  exact h rfl

/-- A register that is not as before is a destination or the flag (R21, R22). -/
theorem destination_of_completed_ne {r : Reg} (h : (s.completed i).v[r] ≠ s.v[r]) :
    namesDestination i r = true ∨ (r = VF ∧ writesFlag i = true) := by
  cases i with
  | ldImm _ _ | addImm _ _ | ldReg _ _ | orReg _ _ | andReg _ _ | xorReg _ _ | rnd _ _ | ldVxDt _ =>
    exact .inl (beq_iff_eq.mpr (eq_of_getReg_set_ne h))
  | addReg _ _ | subReg _ _ | shr _ _ | subnReg _ _ | shl _ _ =>
    exact (eq_or_eq_of_getReg_set_set_ne h).imp beq_iff_eq.mpr fun hr => ⟨hr, rfl⟩
  | drw _ _ _ => exact .inr ⟨eq_of_getReg_set_ne h, rfl⟩
  | ldKey x =>
    cases hk : s.newKey with
    | none => rw [State.completed_ldKey_of_none hk] at h; exact absurd rfl h
    | some b =>
      rw [State.completed_ldKey_of_some hk] at h
      exact .inl (beq_iff_eq.mpr (eq_of_getReg_set_ne h))
  | loadRegs x =>
    simp only [State.completed, getReg_putRegs, List.length_map, List.length_range] at h
    refine .inl (decide_eq_true ?_)
    by_contra hle
    exact h (if_neg (by omega))
  | _ => exact absurd rfl h

theorem flagByte_eq_zero_or_one (b : Bool) : flagByte b = 0 ∨ flagByte b = 1 := by
  cases b with
  | false => exact .inl rfl
  | true => exact .inr rfl

/-- VF after the flag and then the result were written, the result elsewhere (R42). -/
theorem getReg_VF_set_set {v : Vector Byte 16} {x : Reg} (hx : (VF == x) = false) (f b : Byte) :
    ((v.set VF f).set x b)[VF] = f := by
  rw [getReg_set, if_neg (beq_eq_false_iff_ne.mp hx), getReg_set, if_pos rfl]

theorem flag_of_completed (hf : writesFlag i = true) (hd : namesDestination i VF = false) :
    ∃ b, (s.completed i).v[VF] = flagByte b := by
  cases i with
  | addReg _ _ | subReg _ _ | shr _ _ | subnReg _ _ | shl _ _ =>
    exact ⟨_, getReg_VF_set_set hd _ _⟩
  | drw _ _ _ => exact ⟨_, (getReg_set _ _ _ _).trans (if_pos rfl)⟩
  | _ => cases hf

/-! ### Special registers, display and stack: each has its writers -/

theorem writer_of_completed_i_ne (h : (s.completed i).i ≠ s.i) :
    (∃ nnn, i = .ldI nnn) ∨ (∃ x, i = .addI x) ∨ ∃ x, i = .ldF x := by
  cases i with
  | ldI nnn => exact .inl ⟨nnn, rfl⟩
  | addI x => exact .inr (.inl ⟨x, rfl⟩)
  | ldF x => exact .inr (.inr ⟨x, rfl⟩)
  | _ => exact absurd rfl h

theorem writer_of_completed_dt_ne (h : (s.completed i).dt ≠ s.dt) : ∃ x, i = .ldDtVx x := by
  cases i with
  | ldDtVx x => exact ⟨x, rfl⟩
  | _ => exact absurd rfl h

theorem writer_of_completed_st_ne (h : (s.completed i).st ≠ s.st) : ∃ x, i = .ldStVx x := by
  cases i with
  | ldStVx x => exact ⟨x, rfl⟩
  | _ => exact absurd rfl h

theorem writer_of_completed_disp_ne (h : (s.completed i).disp ≠ s.disp) :
    i = .cls ∨ ∃ x y n, i = .drw x y n := by
  cases i with
  | cls => exact .inl rfl
  | drw x y n => exact .inr ⟨x, y, n, rfl⟩
  | _ => exact absurd rfl h

theorem writer_of_completed_sp_ne (h : (s.completed i).sp ≠ s.sp) :
    i = .ret ∨ ∃ nnn, i = .call nnn := by
  cases i with
  | ret => exact .inl rfl
  | call nnn => exact .inr ⟨nnn, rfl⟩
  | _ => exact absurd rfl h

theorem writer_of_completed_stack_ne (h : (s.completed i).stack ≠ s.stack) :
    ∃ nnn, i = .call nnn := by
  cases i with
  | call nnn => exact ⟨nnn, rfl⟩
  | _ => exact absurd rfl h

/-! ### Memory -/

theorem readByte_writeBytes_outside {m : Memory} (hm : m.wf) {a b : Nat} {bs : List Byte}
    (h : b < a ∨ a + bs.length ≤ b) : (m.writeBytes a bs).readByte b = m.readByte b := by
  rw [Memory.readByte_writeBytes hm.1, if_neg (by omega)]

theorem readByte_writeBytes_inside {m : Memory} (hm : m.wf) (a : Nat) {k : Nat} {bs : List Byte}
    (hk : k < bs.length) : (m.writeBytes a bs).readByte (a + k) = bs.getD k 0 := by
  rw [Memory.readByte_writeBytes hm.1, if_pos (by omega), Nat.add_sub_cancel_left]

theorem completed_sameBytesOutside (hm : s.mem.wf) :
    SameBytesOutside (storedBytes i s).1 (storedBytes i s).2 s (s.completed i) := by
  intro a ha
  cases i with
  | ldB x => exact readByte_writeBytes_outside hm ha
  | storeRegs x => exact readByte_writeBytes_outside hm (by rwa [State.length_regsUpTo])
  | _ => rfl

/-- The causes of the table are all conditions on `SP` and `I`. -/
theorem fatalCause_congr {u : State} (hsp : u.sp = s.sp) (hi : u.i = s.i) :
    fatalCause i u = fatalCause i s := by
  cases i <;> simp only [fatalCause, hsp, hi]

/-! ### The statements -/

/-- Settles O12: it raises a condition, which is a next state, or it completes. -/
theorem everyInstructionAnswersNext : Obligations.EveryInstructionAnswersNext := by
  intro i s
  cases hc : fatalCause i s with
  | some c => exact ⟨_, exec_of_raises hc⟩
  | none => exact ⟨_, exec_of_completes hc⟩

/-- Settles O13: the table of R173 and `exec` agree, and a completed instruction leaves `RUN`. -/
theorem fatalConditionsArePreciseAndExact : Obligations.FatalConditionsArePreciseAndExact :=
  fun _ _ hr => ⟨fun _ => exec_of_raises,
    fun hc => ⟨_, exec_of_completes hc, State.completed_run.trans hr⟩⟩

/-- Settles O26: FX33 and FX55 alone store, and a block store leaves the bytes outside it. -/
theorem instructionsStoreOnlyTheirBytes : Obligations.InstructionsStoreOnlyTheirBytes := by
  intro i s t hm h
  rcases exec_cases h with ⟨c, -, rfl⟩ | ⟨-, rfl⟩
  · exact fun _ _ => rfl
  · exact completed_sameBytesOutside hm

/-- Settles O27: a register write reaches its own register alone. -/
theorem onlyDestinationsAndFlagChange : Obligations.OnlyDestinationsAndFlagChange := by
  intro i s t r h hne
  obtain rfl := completed_of_changed (·.v[r]) h hne fun _ => rfl
  exact destination_of_completed_ne hne

/-- Settles O28: what goes to VF is a `flagByte`, and no result overwrites it. -/
theorem flagIsZeroOrOne : Obligations.FlagIsZeroOrOne := by
  intro i s t h hr _ hf hd
  obtain ⟨-, rfl⟩ := completed_of_running h hr
  obtain ⟨b, hb⟩ := flag_of_completed (s := s) hf hd
  rw [hb]
  exact flagByte_eq_zero_or_one b

/-- Settles O29: a halt changes none of the four, and of the completed instructions each has its
writers. -/
theorem specialRegistersHaveTheirWriters : Obligations.SpecialRegistersHaveTheirWriters := by
  intro i s t h
  refine ⟨fun hne => ?_, fun hne => ?_, fun hne => ?_, fun hne => ?_⟩
  · obtain rfl := completed_of_changed (·.i) h hne fun _ => rfl
    exact writer_of_completed_i_ne hne
  · obtain rfl := completed_of_changed (·.dt) h hne fun _ => rfl
    exact writer_of_completed_dt_ne hne
  · obtain rfl := completed_of_changed (·.st) h hne fun _ => rfl
    exact writer_of_completed_st_ne hne
  · obtain rfl := completed_of_changed (·.disp) h hne fun _ => rfl
    exact writer_of_completed_disp_ne hne

/-- Settles O30: the same for `SP` and the stack. -/
theorem onlyCallAndReturnTouchStack : Obligations.OnlyCallAndReturnTouchStack := by
  intro i s t h
  refine ⟨fun hne => ?_, fun hne => ?_⟩
  · obtain rfl := completed_of_changed (·.sp) h hne fun _ => rfl
    exact writer_of_completed_sp_ne hne
  · obtain rfl := completed_of_changed (·.stack) h hne fun _ => rfl
    exact writer_of_completed_stack_ne hne

/-- Settles O31: neither a halt nor a completed instruction touches these fields. -/
theorem instructionsLeaveInputsAlone : Obligations.InstructionsLeaveInputsAlone := by
  intro i s t h
  rcases exec_cases h with ⟨c, -, rfl⟩ | ⟨-, rfl⟩
  · exact ⟨rfl, rfl, rfl, rfl, rfl, rfl, rfl⟩
  · simp

/-- Settles O32: neither the causes nor any other instruction's effect mention the random byte. -/
theorem onlyRandomInstructionReadsRandomByte :
    Obligations.OnlyRandomInstructionReadsRandomByte := by
  intro i s t r hi h
  refine exec_of_commutes (g := fun s => { s with rnd := r }) (fatalCause_congr rfl rfl)
    (fun _ => rfl) ?_ h
  cases i with
  | rnd x nn => exact absurd rfl (hi x nn)
  | _ => rfl

/-- Settles O33: neither the causes nor any other instruction's effect mention the samples. -/
theorem onlyKeypadInstructionsReadKeys : Obligations.OnlyKeypadInstructionsReadKeys := by
  intro i s t keys kprev hi h
  refine exec_of_commutes (g := fun s => { s with keys := keys, kprev := kprev })
    (fatalCause_congr rfl rfl) (fun _ => rfl) ?_ h
  cases i with
  | skp x => exact absurd rfl (hi x).1
  | sknp x => exact absurd rfl (hi x).2.1
  | ldKey x => exact absurd rfl (hi x).2.2
  | _ => rfl

end Sys2Proof.Machine
end

section
/-! `PC` after every instruction (spec 10_state.md R41), and the transfers that are no skips
(40_flow.md): the offset jump, call and return. -/

namespace Sys2Proof.Machine

variable {i : Instr} {s t : State}

/-! ### The values a completed instruction puts into `PC` -/

/-- The sum of BNNN does not wrap: at most 0xFFF + 0xFF (R103). -/
theorem toNat_zextImm_add_zextByte (nnn : BitVec 12) (b : Byte) :
    (zextImm nnn + zextByte b).toNat = nnn.toNat + b.toNat := by
  have hn := nnn.isLt
  have hb := b.isLt
  rw [BitVec.toNat_add, toNat_zextImm, toNat_zextByte, Nat.mod_eq_of_lt (by omega)]

theorem State.toNat_skipIf_pc (hpc : s.pc.toNat ≤ 0xFFE) (c : Bool) :
    (s.skipIf c).pc.toNat = if c = true then s.pc.toNat + 4 else s.pc.toNat + 2 := by
  rw [State.skipIf_eq]
  cases c with
  | false => exact State.toNat_npc (by omega)
  | true => rw [if_pos rfl, BitVec.toNat_add]; simp; omega

/-- FX0A goes on when there is a new key (R41, R152). -/
theorem State.toNat_completed_ldKey_pc (hpc : s.pc.toNat ≤ 0xFFE) (x : Reg) :
    (s.completed (.ldKey x)).pc.toNat =
      if s.newKeys = 0 then s.pc.toNat else s.pc.toNat + 2 := by
  cases hk : s.newKey with
  | none => rw [State.completed_ldKey_of_none hk, if_pos (State.newKey_eq_none.mp hk)]
  | some b =>
    have hne : s.newKeys ≠ 0 := fun h0 => by rw [State.newKey_eq_none.mpr h0] at hk; cases hk
    rw [State.completed_ldKey_of_some hk, if_neg hne]
    exact State.toNat_npc (s := s) (by omega)

/-- The table of R41. -/
theorem State.toNat_completed_pc (hpc : s.pc.toNat ≤ 0xFFE) (hc : fatalCause i s = none) :
    (s.completed i).pc.toNat = nextPc i s := by
  have hnpc : s.npc.toNat = s.pc.toNat + 2 := State.toNat_npc (by omega)
  cases i with
  | ret =>
    have hsp : s.sp.val ≠ 0 := by simpa [fatalCause] using hc
    rw [nextPc, dif_pos (Nat.pos_of_ne_zero hsp)]; rfl
  | jp nnn | call nnn => exact toNat_zextImm nnn
  | jpV0 nnn => exact toNat_zextImm_add_zextByte nnn _
  | seImm _ _ | seReg _ _ =>
    simp only [State.completed, State.toNat_skipIf_pc hpc, nextPc, beq_iff_eq]
  | sneImm _ _ | sneReg _ _ =>
    simp only [State.completed, State.toNat_skipIf_pc hpc, nextPc, bne_iff_ne]
  | skp x => exact State.toNat_skipIf_pc hpc _
  | sknp x =>
    rw [State.completed, State.toNat_skipIf_pc hpc, nextPc]
    cases s.pressed s.v[x] <;> rfl
  | ldKey x => exact State.toNat_completed_ldKey_pc hpc x
  | sys nnn => cases hc
  | _ => exact hnpc

/-! ### Jump with offset, call and return -/

theorem exec_jpV0 (nnn : BitVec 12) (s : State) :
    exec (.jpV0 nnn) s = .next (s.setPc (zextImm nnn + zextByte s.v[(0 : Reg)])) := rfl

/-- 2NNN with room on the stack (R102). -/
theorem exec_call_of_lt {nnn : BitVec 12} (h : s.sp.val < 16) :
    exec (.call nnn) s = .next { s with
      stack := s.stack.set s.sp.val s.npc, sp := ⟨s.sp.val + 1, by omega⟩, pc := zextImm nnn } :=
  execCall_eq_next.mpr (.inl ⟨h, rfl⟩)

/-- 00EE with a return address on the stack (R100). -/
theorem exec_ret_of_pos (h : 0 < s.sp.val) :
    exec .ret s = .next { s with
      sp := ⟨s.sp.val - 1, by omega⟩, pc := s.stack[s.sp.val - 1]'(by omega) } :=
  execRet_eq_next.mpr (.inl ⟨h, rfl⟩)

theorem getSlot_set (v : Vector Word 16) {n : Nat} (hn : n < 16) (w : Word) (j : Fin 16) :
    (v.set n w)[j] = if j.val = n then w else v[j] := by
  rw [Fin.getElem_fin, Vector.getElem_set]
  exact if_congr eq_comm rfl rfl

/-! ### The statements -/

/-- Settles O11: what completes leaves in `PC` what the table says, and what halts does not count. -/
theorem nextPcOfEveryInstruction : Obligations.NextPcOfEveryInstruction := by
  intro i s t _ hpc h hr
  obtain ⟨hc, rfl⟩ := completed_of_running h hr
  exact State.toNat_completed_pc hpc hc

/-- Settles O35: the 16-bit sum of the two zero-extended values is exact. -/
theorem offsetJumpAddsRegisterZero : Obligations.OffsetJumpAddsRegisterZero :=
  fun nnn s => ⟨_, exec_jpV0 nnn s, toNat_zextImm_add_zextByte nnn _, rfl⟩

/-- Settles O36: a push into the slot at `SP` and a jump, or the condition of the table. -/
theorem callPushesReturnAddress : Obligations.CallPushesReturnAddress := by
  intro nnn s
  refine ⟨fun hsp => ?_, fun hsp => exec_of_raises (if_pos hsp)⟩
  exact ⟨_, exec_call_of_lt hsp, rfl, rfl, toNat_zextImm nnn, getSlot_set s.stack hsp s.npc⟩

/-- Settles O37: a pop of the slot below `SP`, or the condition of the table. -/
theorem returnPopsAddress : Obligations.ReturnPopsAddress := by
  intro s
  refine ⟨fun j hj => ?_, fun hsp => exec_of_raises (if_pos hsp)⟩
  refine ⟨_, exec_ret_of_pos (by omega), rfl, by simp [hj], ?_⟩
  simp [hj]

/-- Settles O38: the return pops the slot the call pushed to, which still holds the address after
the call. -/
theorem callThenReturnComesBack : Obligations.CallThenReturnComesBack := by
  intro nnn s s₁ s₂ _ hcall hr hsp hslot
  rcases execCall_eq_next.mp hcall with ⟨hlt, rfl⟩ | ⟨-, rfl⟩
  · have hsp₂ : s₂.sp.val = s.sp.val + 1 := congrArg Fin.val hsp
    refine ⟨_, exec_ret_of_pos (by omega), ?_, Fin.ext (by simp [hsp₂])⟩
    have htop := hslot ⟨s.sp.val, hlt⟩ rfl
    rw [getSlot_set s.stack hlt, if_pos rfl] at htop
    simpa [hsp₂, State.npc] using htop
  · cases hr

/-- Settles O40: the meaning of 0NNN is the raising of the condition. -/
theorem machineRoutineCallIsInvalid : Obligations.MachineRoutineCallIsInvalid :=
  fun _ _ => exec_of_raises rfl

end Sys2Proof.Machine
end

section
/-! The events (spec 00_scope.md R6): the instruction cycle of `Step`, the halted core, `Reset`, `Load`
and `Tick`. -/

namespace Sys2Proof.Machine

variable {s t : State}

/-! ### Fetch and decode -/

theorem toNat_wordOfBytes (hi lo : Byte) :
    (wordOfBytes hi lo).toNat = hi.toNat * 256 + lo.toNat := by
  rw [wordOfBytes, BitVec.toNat_append, Nat.shiftLeft_eq, Nat.mul_comm,
    ← Nat.two_pow_add_eq_or_of_lt lo.isLt, Nat.mul_comm]

theorem decode_of_decodeBytes {hi lo : Byte} {rest : List Byte} {i : Instr}
    (h : decodeBytes [hi, lo] = .ok (i, rest)) : decode (wordOfBytes hi lo) = .ok i := by
  rw [decodeBytes] at h
  split at h
  · cases h; assumption
  · cases h

theorem Instr.eq_sys_of_not_defined {i : Instr} (h : i.defined = false) : ∃ nnn, i = .sys nnn := by
  cases i with
  | sys nnn => exact ⟨nnn, rfl⟩
  | _ => cases h

/-! ### The instruction cycle by what was fetched (R40) -/

theorem runInstruction_of_decode {w : Word} {i : Instr} (hf : s.fetch = some w)
    (hd : decode w = .ok i) : runInstruction s = completeStep (exec i s) := by
  simp only [runInstruction, hf, hd]

theorem runInstruction_of_fetch_none (hf : s.fetch = none) :
    runInstruction s = .next { s with run := .halted .addressOutOfRange } := by
  simp only [runInstruction, hf, raise]

/-- Nothing of the 34 instructions: the decoder rejects the word or gives 0NNN, which raises the
same condition (R78). -/
theorem runInstruction_of_not_decodesDefined {w : Word} (hf : s.fetch = some w)
    (hd : ¬DecodesDefined w) :
    runInstruction s = .next { s with run := .halted .invalidOpcode } := by
  refine runInstruction_eq_next.mpr (.inr ?_)
  cases hw : decode w with
  | error r => exact .inl ⟨w, r, hf, hw, rfl⟩
  | ok i =>
    have hundef : i.defined = false := Bool.eq_false_iff.mpr fun hdef => hd ⟨i, hw, hdef⟩
    obtain ⟨nnn, rfl⟩ := Instr.eq_sys_of_not_defined hundef
    exact .inr ⟨w, _, _, hf, hw, exec_of_raises rfl, .inr ⟨_, rfl, rfl⟩⟩

theorem exists_runInstruction_eq_next (s : State) : ∃ t, runInstruction s = .next t := by
  cases hf : s.fetch with
  | none => exact ⟨_, runInstruction_of_fetch_none hf⟩
  | some w =>
    cases hd : decode w with
    | error r => exact ⟨_, runInstruction_eq_next.mpr (.inr (.inl ⟨w, r, hf, hd, rfl⟩))⟩
    | ok i =>
      obtain ⟨u, hu⟩ := everyInstructionAnswersNext i s
      rw [runInstruction_of_decode hf hd, hu]
      exact ⟨_, rfl⟩

/-- The keys are recorded when the core is left running, and nowhere else (R34, R171). -/
theorem kprev_of_runInstruction (h : runInstruction s = .next t) :
    (t.run = .running → t.kprev = s.keys) ∧ (t.run ≠ .running → t.kprev = s.kprev) := by
  rcases runInstruction_eq_next.mp h with ⟨-, rfl⟩ | ⟨-, -, -, -, rfl⟩ | ⟨w, i, u, -, -, hu, hend⟩
  · exact ⟨fun hr => (by cases hr), fun _ => rfl⟩
  · exact ⟨fun hr => (by cases hr), fun _ => rfl⟩
  · obtain ⟨hkprev, hkeys, -⟩ := instructionsLeaveInputsAlone i s u hu
    rcases hend with ⟨hr, rfl⟩ | ⟨c, hr, rfl⟩
    · exact ⟨fun _ => hkeys, fun hne => absurd hr hne⟩
    · exact ⟨fun hr' => (by rw [hr] at hr'; cases hr'), fun _ => hkprev⟩

/-! ### Free events, and runs of several steps -/

theorem freeEvent_cases (n : Nat) :
    freeEvent n = .tick ∨ ∃ keys rnd, freeEvent n = .step keys rnd := by
  unfold freeEvent
  split
  · exact .inl rfl
  · exact .inr ⟨_, _, rfl⟩

/-- With only `Step`s and `Tick`s listed, the next event, listed or free, is one of them (R7). -/
theorem State.nextEvent_cases
    (h : ∀ e ∈ s.schedule, e = .tick ∨ ∃ keys rnd, e = .step keys rnd) :
    s.nextEvent = .tick ∨ ∃ keys rnd, s.nextEvent = .step keys rnd := by
  unfold State.nextEvent
  split
  · rename_i e rest hs
    exact h e (by simp [hs])
  · exact freeEvent_cases _

theorem State.takeEvent_eq (s : State) : s.takeEvent =
    { s with schedule := s.takeEvent.schedule, eventCount := s.takeEvent.eventCount } := by
  unfold State.takeEvent
  split <;> rfl

theorem core_run_zero (s : State) : Host.Core.run Sys2Proof.core 0 s = .next s := rfl

theorem run_succ_of_step {M : Host.Core} {k : Nat} {u w : M.State} (h : M.step u = .next w) :
    M.run (k + 1) u = M.run k w := by
  rw [Host.Core.run, h]

theorem core_run_succ {k : Nat} (h : step s = .next t) :
    Host.Core.run Sys2Proof.core (k + 1) s = Host.Core.run Sys2Proof.core k t :=
  run_succ_of_step (M := Sys2Proof.core) h

/-- Halted, a `Step` and a `Tick` only use up their event (R172, R184). -/
theorem step_of_halted_of_tick_or_step {c : Condition} (hr : s.run = .halted c)
    (he : s.nextEvent = .tick ∨ ∃ keys rnd, s.nextEvent = .step keys rnd) :
    step s = .next s.takeEvent := by
  rcases he with he | ⟨keys, rnd, he⟩
  · rw [step_of_tick he, State.tick_of_halted (c := c) (by simpa using hr)]
  · exact step_of_halted he hr

/-! ### Load -/

theorem loadEvent_of_loadable {bytes : List Byte} (hl : s.loadable = true) (hr : s.run = .running)
    (hlen : bytes.length ≤ 3584) : loadEvent bytes s = .next { s with
      mem := s.mem.writeBytes 0x200 bytes, loadable := false, loadReport := .loaded } :=
  loadEvent_eq_next.mpr ⟨⟨hl, hr⟩, .inr ⟨hlen, rfl⟩⟩

theorem loadEvent_of_tooLarge {bytes : List Byte} (hl : s.loadable = true) (hr : s.run = .running)
    (hlen : 3584 < bytes.length) :
    loadEvent bytes s = .next { s with loadReport := .romTooLarge } :=
  loadEvent_eq_next.mpr ⟨⟨hl, hr⟩, .inl ⟨hlen, rfl⟩⟩

theorem loadEvent_eq_refused {bytes : List Byte} {r : Refusal} :
    loadEvent bytes s = .refused r ↔
      r = .loadNotAfterReset ∧ ¬(s.loadable = true ∧ s.run = .running) := by
  unfold loadEvent
  by_cases h : s.loadable = true ∧ s.run = .running
  · rw [if_pos h]
    refine ⟨fun hr => ?_, fun hr => absurd h hr.2⟩
    split at hr <;> cases hr
  · rw [if_neg h, Host.Outcome.refused.injEq, eq_comm]
    exact (and_iff_left h).symm

/-! ### Events that are never refused -/

theorem exists_step_eq_next_of_ne_load (h : ∀ bytes, s.nextEvent ≠ .load bytes) :
    ∃ t, step s = .next t := by
  cases he : s.nextEvent with
  | load bytes => exact absurd he (h bytes)
  | reset font => exact ⟨_, step_of_reset he⟩
  | tick => exact ⟨_, step_of_tick he⟩
  | step keys rnd =>
    cases hr : s.run with
    | running => rw [step_of_running he hr]; exact exists_runInstruction_eq_next _
    | halted c => exact ⟨_, step_of_halted he hr⟩

/-! ### The statements: the cycle -/

/-- Settles O6: the inversion of the fetch, with the number its two bytes make. -/
theorem fetchReadsTwoBytesHighByteFirst : Obligations.FetchReadsTwoBytesHighByteFirst := by
  intro s
  refine ⟨fun h => ?_, fun h => State.fetch_eq_none.mpr (Nat.succ_le_succ h)⟩
  exact ⟨_, State.fetch_eq_some.mpr ⟨Nat.lt_succ_of_le (Nat.succ_le_succ h), rfl⟩,
    toNat_wordOfBytes _ _⟩

/-- Settles O7: the cycle on a fetch and a decoding that succeed. -/
theorem stepRunsDecodedInstruction : Obligations.StepRunsDecodedInstruction := by
  intro s keys rnd i he hr hpc _ hd
  have hf : (s.takeEvent.sample keys rnd).fetch =
      some (wordOfBytes (s.mem.readByte s.pc.toNat) (s.mem.readByte (s.pc.toNat + 1))) := by
    rw [State.sample_fetch, State.takeEvent_fetch]
    exact State.fetch_eq_some.mpr ⟨Nat.lt_succ_of_le hpc, rfl⟩
  rw [step_of_running he hr, runInstruction_of_decode hf (decode_of_decodeBytes hd)]

/-- Settles O8: what the cycle leaves in `KPREV`, `keys` being the sample of this `Step`. -/
theorem completedStepRecordsKeys : Obligations.CompletedStepRecordsKeys := by
  intro s t keys rnd he hr h
  rw [step_of_running he hr] at h
  simpa using kprev_of_runInstruction h

/-- Settles O9: the cycle on a fetch that fails. -/
theorem fetchBeyondMemoryHalts : Obligations.FetchBeyondMemoryHalts := by
  intro s keys rnd he hr hpc
  have hf : s.fetch = none := (fetchReadsTwoBytesHighByteFirst s).2 hpc
  rw [step_of_running he hr, runInstruction_of_fetch_none (by simpa using hf)]

/-- Settles O10: a word that selects no row decodes to none of the 34 instructions. -/
theorem unrecognizedOpcodeHalts : Obligations.UnrecognizedOpcodeHalts := by
  intro s keys rnd w he hr hf hrows
  have hundef : ¬DecodesDefined w := fun hd => by
    obtain ⟨r, hr, hs⟩ := decodesDefined_iff_selects.mp hd
    rw [hrows r hr] at hs; cases hs
  rw [step_of_running he hr, runInstruction_of_not_decodesDefined (by simpa using hf) hundef]

/-! ### The statements: halting and refusing -/

/-- Settles O14, by induction on the number of events: each uses up itself and changes nothing. -/
theorem haltedCoreIsPermanent : Obligations.HaltedCoreIsPermanent := by
  intro n
  induction n with
  | zero => exact fun s _ _ _ => ⟨s, core_run_zero s, rfl⟩
  | succ n ih =>
    intro s c hr hsched
    have hstep := step_of_halted_of_tick_or_step hr (State.nextEvent_cases hsched)
    obtain ⟨t, hrun, ht⟩ := ih s.takeEvent c (by simpa using hr) fun e he =>
      hsched e (List.mem_of_mem_tail (by simpa using he))
    refine ⟨t, (core_run_succ hstep).trans hrun, ?_⟩
    rw [State.takeEvent_eq] at ht
    exact ht

/-- Settles O15: a halted core refuses a `Load`, and a `Step` and a `Tick` leave it. -/
theorem onlyResetLeavesHalt : Obligations.OnlyResetLeavesHalt := by
  intro s t c hr h
  rcases step_cases h with ⟨font, he, -⟩ | ⟨bytes, -, hload⟩ | ⟨he, rfl⟩ |
    ⟨keys, rnd, -, ⟨c', -, rfl⟩ | ⟨hrun, -⟩⟩
  · exact .inr ⟨font, he⟩
  · obtain ⟨⟨-, hrun⟩, -⟩ := loadEvent_eq_next.mp hload
    rw [State.takeEvent_run, hr] at hrun; cases hrun
  · exact .inl (by simpa using hr)
  · exact .inl (by simpa using hr)
  · rw [hr] at hrun; cases hrun

/-- Settles O16: there is no fault, and of the four events only `Load` can be refused. -/
theorem stepRefusesOnlyLateLoad : Obligations.StepRefusesOnlyLateLoad := by
  refine fun s => ⟨fun r => (nomatch r), fun r => ?_⟩
  by_cases hload : ∃ bytes, s.nextEvent = .load bytes
  · obtain ⟨bytes, he⟩ := hload
    rw [step_of_load he, loadEvent_eq_refused]
    simp [he]
  · obtain ⟨t, ht⟩ := exists_step_eq_next_of_ne_load (not_exists.mp hload)
    rw [ht]
    exact ⟨fun h => (by cases h), fun h => absurd h.2.1 hload⟩

end Sys2Proof.Machine
end

section
/-! `Reset`, `Load`, `Tick` (spec 70_reset_and_hazards.md R200, 20_memory.md R66, 60_exceptions.md
R183), and the invariant of reachable states (10_state.md R43). -/

namespace Sys2Proof.Machine

variable {i : Instr} {s t : State}

/-! ### What `Reset` leaves -/

theorem resetRegs_eq_zero (r : Reg) : State.reset.v[r] = 0 := Vector.getElem_replicate r.isLt

theorem resetStack_eq_zero (j : Fin 16) : State.reset.stack[j] = 0 :=
  Vector.getElem_replicate j.isLt

theorem cell_reset_disp (x y : Nat) : State.reset.disp.cell x y = false := cell_blankDisplay x y

/-- The memory of `Reset`, from any font: the font and 0 above (R58). -/
theorem readByte_fontMemory (font : Config.Font) (a : Nat) :
    (Memory.writeBytes [] 0 font.toList).readByte a =
      if a < 80 then font.toList.getD a 0 else unlistedByte a := by
  rw [Memory.readByte_writeBytes List.Pairwise.nil, Vector.length_toList]
  simp

theorem readByte_fontMemory_of_lt (font : Config.Font) (k : Fin 80) :
    (Memory.writeBytes [] 0 font.toList).readByte k.val = font[k] := by
  rw [readByte_fontMemory, if_pos k.isLt, List.getD_eq_getElem _ _ (by simp)]
  exact Vector.getElem_toList _

/-! ### Ticks -/

theorem step_of_tick_of_running (he : s.nextEvent = .tick) (hr : s.run = .running) :
    step s = .next { s.takeEvent with
      dt := countDown s.dt, st := countDown s.st, loadable := false } := by
  rw [step_of_tick he, State.tick_of_running (State.takeEvent_run s ▸ hr), State.takeEvent_dt,
    State.takeEvent_st]

theorem State.toNat_tick_dt (hr : s.run = .running) : s.tick.dt.toNat = s.dt.toNat - 1 := by
  rw [State.tick_of_running hr, toNat_countDown]

theorem State.toNat_tick_st (hr : s.run = .running) : s.tick.st.toNat = s.st.toNat - 1 := by
  rw [State.tick_of_running hr, toNat_countDown]

theorem State.nextEvent_of_cons {e : Event} {rest : List Event} (h : s.schedule = e :: rest) :
    s.nextEvent = e := by
  rw [State.nextEvent, h]

/-! ### The delay timer -/

/-- No instruction but FX15 changes `DT`, whether it completes or halts. -/
theorem exec_dt_of_ne (h : exec i s = .next t) (hi : ∀ x, i ≠ .ldDtVx x) : t.dt = s.dt := by
  by_contra hne
  obtain ⟨x, hx⟩ := (specialRegistersHaveTheirWriters i s t h).2.1 hne
  exact hi x hx

theorem dt_of_runInstruction (h : runInstruction s = .next t)
    (hi : ∀ w x, s.fetch = some w → decode w ≠ .ok (.ldDtVx x)) : t.dt = s.dt := by
  rcases runInstruction_eq_next.mp h with ⟨-, rfl⟩ | ⟨-, -, -, -, rfl⟩ | ⟨w, i, u, hf, hd, hu, hend⟩
  · rfl
  · rfl
  · have hdt : u.dt = s.dt := exec_dt_of_ne hu fun x hx => hi w x hf (hx ▸ hd)
    rcases hend with ⟨-, rfl⟩ | ⟨-, -, rfl⟩
    · exact hdt
    · exact hdt

/-! ### Canonical memories -/

/-- Up to its first cell, the rest of a canonical memory lists nothing. -/
theorem readByte_of_le_head {c : Host.Cell} {m : Memory} (hm : Memory.wf (c :: m)) {a : Nat}
    (ha : a ≤ c.1) : m.readByte a = unlistedByte a := by
  refine Memory.readByte_of_unlisted fun d hd => ?_
  have := (List.pairwise_cons.mp hm.1).1 d hd
  omega

theorem Memory.wf_tail {c : Host.Cell} {m : Memory} (hm : Memory.wf (c :: m)) : Memory.wf m :=
  ⟨(List.pairwise_cons.mp hm.1).2, fun d hd => hm.2 d (List.mem_cons_of_mem c hd)⟩

/-- A canonical memory says something new at its first cell. -/
theorem readByte_head_ne {c : Host.Cell} {m : Memory} (hm : Memory.wf (c :: m)) :
    Memory.readByte (c :: m) c.1 ≠ unlistedByte c.1 := by
  rw [Memory.readByte_cons, if_pos rfl]
  exact (hm.2 c List.mem_cons_self).2

/-- So no canonical memory that reads alike begins above it. -/
theorem head_le_of_readByte_eq {c d : Host.Cell} {m m' : Memory} (hm : Memory.wf (c :: m))
    (hm' : Memory.wf (d :: m')) (h : ∀ a, Memory.readByte (c :: m) a = Memory.readByte (d :: m') a) :
    d.1 ≤ c.1 := by
  by_contra hlt
  refine readByte_head_ne hm ?_
  rw [h, Memory.readByte_cons, if_neg (by omega), readByte_of_le_head hm' (by omega)]

theorem Memory.eq_of_readByte_eq {m m' : Memory} (hm : m.wf) (hm' : m'.wf)
    (h : ∀ a, m.readByte a = m'.readByte a) : m = m' := by
  induction m generalizing m' with
  | nil =>
    cases m' with
    | nil => rfl
    | cons d m' => exact absurd (h d.1).symm (readByte_head_ne hm')
  | cons c m ih =>
    cases m' with
    | nil => exact absurd (h c.1) (readByte_head_ne hm)
    | cons d m' =>
      have haddr : c.1 = d.1 :=
        Nat.le_antisymm (head_le_of_readByte_eq hm' hm fun a => (h a).symm)
          (head_le_of_readByte_eq hm hm' h)
      have hbyte : c.2 = d.2 := by simpa [haddr] using h c.1
      have hrest : ∀ a, Memory.readByte m a = Memory.readByte m' a := fun a => by
        by_cases ha : a = c.1
        · rw [readByte_of_le_head hm ha.le, readByte_of_le_head hm' (ha.trans haddr).le]
        · simpa [ha, haddr ▸ ha] using h a
      rw [Prod.ext haddr hbyte, ih (Memory.wf_tail hm) (Memory.wf_tail hm') hrest]

/-! ### The invariant -/

/-- The table of R41 stays below 0x10FF where every return address is at most 0x1000. -/
theorem nextPc_le (hpc : s.pc.toNat ≤ 0xFFE) (hstack : ∀ j : Fin 16, s.stack[j].toNat ≤ 0x1000) :
    nextPc i s ≤ 0x10FE := by
  cases i with
  | ret =>
    rw [nextPc]
    split
    · exact (hstack ⟨s.sp.val - 1, by omega⟩).trans (by decide)
    · omega
  | jp nnn | call nnn => have := nnn.isLt; simp only [nextPc]; omega
  | jpV0 nnn => have := nnn.isLt; have := (s.v[0]).isLt; simp only [nextPc]; omega
  | seImm _ _ | sneImm _ _ | seReg _ _ | sneReg _ _ | skp _ | sknp _ | ldKey _ =>
    simp only [nextPc]; split <;> omega
  | _ => simp only [nextPc]; omega

theorem completed_stack_le (hpc : s.pc.toNat ≤ 0xFFE)
    (hstack : ∀ j : Fin 16, s.stack[j].toNat ≤ 0x1000) (j : Fin 16) :
    (s.completed i).stack[j].toNat ≤ 0x1000 := by
  cases i with
  | call nnn =>
    have hnpc : s.npc.toNat = s.pc.toNat + 2 := State.toNat_npc (by omega)
    simp only [State.completed, Fin.getElem_fin, Vector.getElem_setIfInBounds]
    split
    · omega
    · exact hstack j
  | _ => exact hstack j

theorem completed_mem_wf (hm : s.mem.wf) (hc : fatalCause i s = none) :
    (s.completed i).mem.wf := by
  cases i with
  | ldB x =>
    have hi : ¬(s.i.toNat + 2 > 0xFFF) := by simpa [fatalCause] using hc
    exact Memory.wf_writeBytes hm (show s.i.toNat + 3 ≤ 4096 by omega)
  | storeRegs x =>
    have hi : ¬(s.i.toNat + x.val > 0xFFF) := by simpa [fatalCause] using hc
    have hlen := State.length_regsUpTo s x
    exact Memory.wf_writeBytes hm (show s.i.toNat + (s.regsUpTo x).length ≤ 4096 by omega)
  | _ => exact hm

/-- The invariant speaks of `PC`, the stack and memory alone. -/
theorem State.inv_congr (hpc : t.pc = s.pc) (hstack : t.stack = s.stack) (hmem : t.mem = s.mem) :
    t.inv ↔ s.inv := by
  simp only [State.inv, hpc, hstack, hmem]

/-- An instruction that a `Step` can fetch keeps the invariant. -/
theorem exec_keeps_inv (hinv : s.inv) (hpc : s.pc.toNat ≤ 0xFFE) (h : exec i s = .next t) :
    t.inv := by
  have ⟨_, hstack, hmem⟩ := hinv
  rcases exec_cases h with ⟨c, -, rfl⟩ | ⟨hc, rfl⟩
  · exact hinv
  · exact ⟨(State.toNat_completed_pc hpc hc).trans_le (nextPc_le hpc hstack),
      completed_stack_le hpc hstack, completed_mem_wf hmem hc⟩

theorem runInstruction_keeps_inv (hinv : s.inv) (h : runInstruction s = .next t) : t.inv := by
  rcases runInstruction_eq_next.mp h with ⟨-, rfl⟩ | ⟨-, -, -, -, rfl⟩ | ⟨w, i, u, hf, -, hu, hend⟩
  · exact hinv
  · exact hinv
  · have hpc : s.pc.toNat + 1 < 4096 := (State.fetch_eq_some.mp hf).1
    have huinv : u.inv := exec_keeps_inv hinv (by omega) hu
    rcases hend with ⟨-, rfl⟩ | ⟨-, -, rfl⟩
    · exact huinv
    · exact huinv

theorem loadEvent_keeps_inv {bytes : List Byte} (hinv : s.inv)
    (h : loadEvent bytes s = .next t) : t.inv := by
  have ⟨hpc, hstack, hmem⟩ := hinv
  obtain ⟨-, ⟨-, rfl⟩ | ⟨hlen, rfl⟩⟩ := loadEvent_eq_next.mp h
  · exact hinv
  · exact ⟨hpc, hstack, Memory.wf_writeBytes hmem (show 0x200 + bytes.length ≤ 4096 by omega)⟩

theorem reset_inv : State.reset.inv :=
  ⟨by decide, fun j => by rw [resetStack_eq_zero]; decide, Memory.wf_nil⟩

theorem resetWith_inv (s : State) (font : Config.Font) : (s.resetWith font).inv := by
  obtain ⟨hpc, hstack, hmem⟩ := reset_inv
  exact ⟨hpc, hstack, Memory.wf_writeBytes hmem (by rw [Vector.length_toList]; decide)⟩

/-! ### The statements -/

/-- Settles O17: the fields of the reset state, and the font read back from where it was stored. -/
theorem resetEventLeavesResetState : Obligations.ResetEventLeavesResetState := by
  intro s font he
  refine ⟨_, step_of_reset he, resetRegs_eq_zero, rfl, rfl, rfl, resetStack_eq_zero, rfl, rfl,
    readByte_fontMemory_of_lt font, fun a ha => ?_, fun x y _ _ => cell_reset_disp x y, rfl, rfl⟩
  rw [State.resetWith_mem, readByte_fontMemory, if_neg (Nat.not_lt.mpr ha), unlistedByte_of_le ha]

/-- Settles O18: the fields of `State.reset`, whose memory lists nothing. -/
theorem resetStateHoldsResetValues : Obligations.ResetStateHoldsResetValues :=
  ⟨resetRegs_eq_zero, rfl, rfl, rfl, resetStack_eq_zero, rfl, rfl, Memory.wf_nil,
    fun k => dif_pos k.isLt, fun _ ha => unlistedByte_of_le ha,
    fun x y _ _ => cell_reset_disp x y, rfl, rfl, rfl⟩

/-- Settles O19: the program is a block stored from 0x200 on; one that is too long is reported. -/
theorem loadStoresProgramOrReportsTooLarge : Obligations.LoadStoresProgramOrReportsTooLarge := by
  intro s bytes he hl hr hm
  have hl' : s.takeEvent.loadable = true := by rw [State.takeEvent_loadable, hl]
  have hr' : s.takeEvent.run = .running := by rw [State.takeEvent_run, hr]
  rw [step_of_load he]
  refine ⟨fun hlen => ⟨_, loadEvent_of_loadable hl' hr' hlen, rfl, fun k hk => ?_, fun a ha => ?_⟩,
    loadEvent_of_tooLarge hl' hr'⟩
  · rw [State.takeEvent_mem]; exact readByte_writeBytes_inside hm 0x200 hk
  · rw [State.takeEvent_mem]; exact readByte_writeBytes_outside hm ha

/-- Settles O20: both timers count down, or, halted, only the event is used up. -/
theorem tickCountsTimersDown : Obligations.TickCountsTimersDown := by
  intro s he
  refine ⟨fun hr => ⟨_, step_of_tick_of_running he hr, rfl, toNat_countDown _, toNat_countDown _⟩,
    fun hr => ?_⟩
  cases hrun : s.run with
  | running => exact absurd hrun hr
  | halted c => exact step_of_halted_of_tick_or_step hrun (.inl he)

/-- Settles O21, by induction on the number of ticks. -/
theorem timersReachZeroAfterTheirTicks : Obligations.TimersReachZeroAfterTheirTicks := by
  intro k
  induction k with
  | zero => exact fun s rest _ hs => ⟨s, core_run_zero s, hs, rfl, rfl, rfl, rfl⟩
  | succ k ih =>
    intro s rest hr hs
    have hr' : s.takeEvent.run = .running := (State.takeEvent_run s).trans hr
    obtain ⟨t, hrun, hsched, hdt, hst, hpc, hv⟩ := ih s.takeEvent.tick rest (by simpa using hr)
      (by simp [hs, List.replicate_succ])
    have hdt' := State.toNat_tick_dt hr'
    have hst' := State.toNat_tick_st hr'
    rw [State.takeEvent_dt] at hdt'
    rw [State.takeEvent_st] at hst'
    refine ⟨t, (core_run_succ (step_of_tick (State.nextEvent_of_cons hs))).trans hrun, hsched,
      by omega, by omega, ?_, ?_⟩
    · rw [hpc, State.tick_pc, State.takeEvent_pc]
    · rw [hv, State.tick_v, State.takeEvent_v]

/-- Settles O22: a tick counts down, and of the instructions FX15 alone changes `DT`. -/
theorem delayTimerNeverRisesWithoutSet : Obligations.DelayTimerNeverRisesWithoutSet := by
  intro s t h hevent
  rcases hevent with he | ⟨keys, rnd, he, hi⟩
  · cases hr : s.run with
    | running =>
      rw [step_of_tick_of_running he hr] at h; cases h
      exact (toNat_countDown s.dt).trans_le (Nat.sub_le _ _)
    | halted c =>
      rw [step_of_halted_of_tick_or_step hr (.inl he)] at h; cases h
      rw [State.takeEvent_dt]
  · cases hr : s.run with
    | running =>
      rw [step_of_running he hr] at h
      have hdt := dt_of_runInstruction h (by simpa using hi)
      rw [hdt, State.sample_dt, State.takeEvent_dt]
    | halted c => rw [step_of_halted he hr] at h; cases h; rw [State.takeEvent_dt]

/-- Settles O23: `PC` is 0x200, the stack 0, and memory lists nothing. -/
theorem resetStateMeetsInvariant : Obligations.ResetStateMeetsInvariant := reset_inv

/-- Settles O24: each event keeps the invariant; for a `Step`, by the table of R41 and the frames of
stack and memory. -/
theorem everyStepKeepsInvariant : Obligations.EveryStepKeepsInvariant := by
  intro s t hinv h
  have htake : s.takeEvent.inv := (State.inv_congr (by simp) (by simp) (by simp)).mpr hinv
  rcases step_cases h with ⟨font, -, rfl⟩ | ⟨bytes, -, hload⟩ | ⟨-, rfl⟩ |
    ⟨keys, rnd, -, ⟨c, -, rfl⟩ | ⟨-, hrun⟩⟩
  · exact resetWith_inv _ font
  · exact loadEvent_keeps_inv htake hload
  · exact (State.inv_congr (by simp) (by simp) (by simp)).mpr htake
  · exact htake
  · exact runInstruction_keeps_inv (s := s.takeEvent.sample keys rnd) htake hrun

/-- Settles O25, by induction on the two lists: their first cells agree, and so do the rests. -/
theorem memoriesThatReadAlikeAreEqual : Obligations.MemoriesThatReadAlikeAreEqual :=
  fun _ _ => Memory.eq_of_readByte_eq

end Sys2Proof.Machine
end

section
/-! Arithmetic with a flag, shifts and the random byte (spec 41_alu.md R116 to R122), the sum of FX1E
(42_index_memory.md R131), and the keypad (44_input.md). -/

namespace Sys2Proof.Machine

/-! ### What the arms answer -/

theorem exec_addReg (x y : Reg) (s : State) : exec (.addReg x y) s =
    .next (s.setFlagThenResult x (carryFlag s.v[x] s.v[y]) (s.v[x] + s.v[y])).advance := rfl

theorem exec_subReg (x y : Reg) (s : State) : exec (.subReg x y) s =
    .next (s.setFlagThenResult x (greaterFlag s.v[x] s.v[y]) (s.v[x] - s.v[y])).advance := rfl

theorem exec_subnReg (x y : Reg) (s : State) : exec (.subnReg x y) s =
    .next (s.setFlagThenResult x (greaterFlag s.v[y] s.v[x]) (s.v[y] - s.v[x])).advance := rfl

theorem exec_shr (x y : Reg) (s : State) : exec (.shr x y) s =
    .next (s.setFlagThenResult x (lowBitFlag s.v[x]) (s.v[x] >>> 1)).advance := rfl

theorem exec_shl (x y : Reg) (s : State) : exec (.shl x y) s =
    .next (s.setFlagThenResult x (highBitFlag s.v[x]) (s.v[x] <<< 1)).advance := rfl

theorem exec_rnd (x : Reg) (nn : Byte) (s : State) :
    exec (.rnd x nn) s = .next (s.setV x (s.rnd &&& nn)).advance := rfl

theorem exec_addI (x : Reg) (s : State) :
    exec (.addI x) s = .next (s.setI (s.i + zextByte s.v[x])).advance := rfl

theorem exec_skp (x : Reg) (s : State) :
    exec (.skp x) s = .next (s.skipIf (s.pressed s.v[x])) := rfl

theorem exec_sknp (x : Reg) (s : State) :
    exec (.sknp x) s = .next (s.skipIf (!s.pressed s.v[x])) := rfl

/-! ### A flag and a result followed by the advance of `PC` -/

/-- An instruction that answers a flag, a result and the advance of `PC` does that and nothing else,
and the flag stays where the result does not go to VF (R42). -/
theorem exists_next_of_exec_eq_setFlagThenResult_advance {ins : Instr} {s : State} {x : Reg}
    {f b : Byte} (h : exec ins s = .next (s.setFlagThenResult x f b).advance) :
    ∃ t, exec ins s = .next t ∧ OnlyRegsAndPc s t ∧ SameRegsBut [x, VF] s t ∧
      t.pc = s.pc + 2 ∧ t.v[x] = b ∧ (x ≠ VF → t.v[VF] = f) := by
  refine ⟨_, h, rfl, fun r hr => ?_, rfl, ?_, fun hx => ?_⟩
  · obtain ⟨hx, hVF⟩ : r ≠ x ∧ r ≠ VF := by simpa using hr
    rw [State.advance_v, State.setFlagThenResult_reg, if_neg hx, if_neg hVF]
  · rw [State.advance_v, State.setFlagThenResult_reg, if_pos rfl]
  · rw [State.advance_v, State.setFlagThenResult_reg, if_neg hx.symm, if_pos rfl]

/-! ### The numbers the flags and the results stand for -/

theorem toNat_flagByte (b : Bool) : (flagByte b).toNat = b.toNat := by cases b <;> rfl

theorem flagByte_decide (p : Prop) [Decidable p] : flagByte (decide p) = if p then 1 else 0 := by
  by_cases h : p
  · rw [decide_eq_true h, if_pos h]; rfl
  · rw [decide_eq_false h, if_neg h]; rfl

theorem toNat_ofNat_byte_of_lt {m : Nat} (h : m < 256) : (BitVec.ofNat 8 m).toNat = m :=
  (BitVec.toNat_ofNat m 8).trans (Nat.mod_eq_of_lt h)

/-- Carry and sum together are the exact sum (R116). -/
theorem carryFlag_mul_add_toNat_add (a b : Byte) :
    256 * (carryFlag a b).toNat + (a + b).toNat = a.toNat + b.toNat := by
  have ha := a.isLt
  have hb := b.isLt
  rw [carryFlag, toNat_flagByte, BitVec.toNat_add]
  by_cases h : a.toNat + b.toNat > 255
  · rw [decide_eq_true h, Bool.toNat_true]; omega
  · rw [decide_eq_false h, Bool.toNat_false]; omega

theorem toNat_sub_eq_emod (a b : Byte) :
    ((a - b).toNat : Int) = ((a.toNat : Int) - b.toNat) % 256 := by
  have ha := a.isLt
  have hb := b.isLt
  rw [BitVec.toNat_sub]
  omega

/-- An instruction that answers a difference with the strict order as its flag (R117, R120). -/
theorem exists_next_of_exec_eq_difference {ins : Instr} {s : State} {x : Reg} {a b : Byte}
    (h : exec ins s = .next (s.setFlagThenResult x (greaterFlag a b) (a - b)).advance) :
    ∃ t, exec ins s = .next t ∧ OnlyRegsAndPc s t ∧ SameRegsBut [x, VF] s t ∧
      t.pc = s.pc + 2 ∧ ((t.v[x]).toNat : Int) = ((a.toNat : Int) - b.toNat) % 256 ∧
      (x ≠ VF → t.v[VF] = if a.toNat > b.toNat then 1 else 0) := by
  obtain ⟨t, hnext, hframe, hregs, hpc, hx, hVF⟩ :=
    exists_next_of_exec_eq_setFlagThenResult_advance h
  exact ⟨t, hnext, hframe, hregs, hpc, by rw [hx, toNat_sub_eq_emod],
    fun hne => (hVF hne).trans (flagByte_decide _)⟩

/-- The bit shifted out to the right (R119). -/
theorem toNat_lowBitFlag (a : Byte) : (lowBitFlag a).toNat = a.toNat % 2 := by
  rw [lowBitFlag, toNat_flagByte, BitVec.getLsbD, Nat.testBit_zero]
  rcases Nat.mod_two_eq_zero_or_one a.toNat with h | h <;> simp [h]

/-- The bit shifted out to the left (R121). -/
theorem toNat_highBitFlag (a : Byte) : (highBitFlag a).toNat = a.toNat / 128 := by
  have ha := a.isLt
  rw [highBitFlag, toNat_flagByte, BitVec.getLsbD, Nat.toNat_testBit]
  omega

theorem toNat_shiftRight_one (a : Byte) : (a >>> 1).toNat = a.toNat / 2 := by
  rw [BitVec.toNat_ushiftRight, Nat.shiftRight_eq_div_pow, pow_one]

theorem toNat_shiftLeft_one (a : Byte) : (a <<< 1).toNat = a.toNat * 2 % 256 := by
  rw [BitVec.toNat_shiftLeft, Nat.shiftLeft_eq, pow_one]

/-! ### Keys -/

/-- A code of 16 or more is no key, however the sample is (R153). -/
theorem State.pressed_eq (s : State) (c : Byte) :
    s.pressed c = (decide (c.toNat ≤ 15) && s.keys.getLsbD c.toNat) :=
  congrArg (· && _) (decide_eq_decide.mpr Nat.lt_succ_iff)

theorem State.getLsbD_newKeys (s : State) {k : Nat} (hk : k < 16) :
    s.newKeys.getLsbD k = (s.keys.getLsbD k && !s.kprev.getLsbD k) := by
  simp [State.newKeys, hk]

/-- A key is no new one exactly when, if it is down, it was down before (R152). -/
theorem State.getLsbD_newKeys_eq_false (s : State) {k : Nat} (hk : k < 16) :
    s.newKeys.getLsbD k = false ↔ (s.keys.getLsbD k = true → s.kprev.getLsbD k = true) := by
  rw [s.getLsbD_newKeys hk]
  cases s.keys.getLsbD k <;> simp

/-! ### The statements -/

/-- Settles O42: the flag is the carry, and carry and sum make up the exact sum. -/
theorem addGivesSumAndCarry : Obligations.AddGivesSumAndCarry := by
  intro x y s
  obtain ⟨t, hnext, hframe, hregs, hpc, hx, hVF⟩ :=
    exists_next_of_exec_eq_setFlagThenResult_advance (exec_addReg x y s)
  refine ⟨t, hnext, hframe, hregs, hpc, by rw [hx, BitVec.toNat_add], fun hne => ?_⟩
  rw [hVF hne, hx]
  exact ⟨flagByte_decide _, carryFlag_mul_add_toNat_add _ _⟩

/-- Settles O43: the minuend is `V[X]`. -/
theorem subtractGivesDifferenceAndStrictFlag :
    Obligations.SubtractGivesDifferenceAndStrictFlag :=
  fun x y s => exists_next_of_exec_eq_difference (exec_subReg x y s)

/-- Settles O44: the minuend is `V[Y]`. -/
theorem reverseSubtractGivesDifferenceAndStrictFlag :
    Obligations.ReverseSubtractGivesDifferenceAndStrictFlag :=
  fun x y s => exists_next_of_exec_eq_difference (exec_subnReg x y s)

/-- Settles O45: half with the lowest bit, or twice with the highest. -/
theorem shiftsMoveOneBitIntoFlag : Obligations.ShiftsMoveOneBitIntoFlag := by
  intro x y s
  constructor
  · obtain ⟨t, hnext, hframe, hregs, hpc, hx, hVF⟩ :=
      exists_next_of_exec_eq_setFlagThenResult_advance (exec_shr x y s)
    refine ⟨t, hnext, hframe, hregs, hpc, by rw [hx, toNat_shiftRight_one], fun hne => ?_⟩
    rw [hVF hne, hx, toNat_lowBitFlag, toNat_shiftRight_one]
    exact ⟨rfl, Nat.div_add_mod _ 2⟩
  · obtain ⟨t, hnext, hframe, hregs, hpc, hx, hVF⟩ :=
      exists_next_of_exec_eq_setFlagThenResult_advance (exec_shl x y s)
    refine ⟨t, hnext, hframe, hregs, hpc, by rw [hx, toNat_shiftLeft_one], fun hne => ?_⟩
    rw [hVF hne, hx, toNat_highBitFlag, toNat_shiftLeft_one]
    exact ⟨rfl, by omega⟩

/-- Settles O46: one register write, of the bitwise conjunction. -/
theorem randomIsMasked : Obligations.RandomIsMasked := by
  intro x nn s
  obtain ⟨t, hnext, hframe, hregs, hpc, hx⟩ :=
    exists_next_of_exec_eq_setV_advance (exec_rnd x nn s)
  exact ⟨t, hnext, hframe, hregs, hpc, fun b _ => by rw [hx, BitVec.getLsbD_and]⟩

/-- Settles O48: one write of `I`, of the sum at its width. -/
theorem indexAddWrapsAtSixteenBits : Obligations.IndexAddWrapsAtSixteenBits :=
  fun x s => exists_next_of_exec_eq_setI_advance (exec_addI x s)
    (by rw [BitVec.toNat_add, toNat_zextByte])

/-- Settles O57: each of the two is a skip on the level of the key. -/
theorem keySkipsTestSample : Obligations.KeySkipsTestSample := by
  intro x s down hdown
  rw [exec_skp, exec_sknp, State.skipIf_eq, State.skipIf_eq, s.pressed_eq, ← hdown]
  refine ⟨rfl, ?_⟩
  cases down <;> rfl

/-- Settles O58: the key that is new where no smaller one is, is the one FX0A takes. -/
theorem keyWaitTakesLowestNewKey : Obligations.KeyWaitTakesLowestNewKey := by
  intro x s k hdown hup hlower
  have hk : s.newKey = some (BitVec.ofNat 8 k.val) := by
    refine State.newKey_eq_some.mpr ⟨k.val, k.isLt, rfl, ?_, fun j hj => ?_⟩
    · rw [s.getLsbD_newKeys k.isLt, hdown, hup]; rfl
    · exact (s.getLsbD_newKeys_eq_false (hj.trans k.isLt)).mpr (hlower ⟨j, hj.trans k.isLt⟩ hj)
  have hexec : exec (.ldKey x) s = .next (s.setV x (BitVec.ofNat 8 k.val)).advance :=
    (exec_of_completes rfl).trans (congrArg _ (State.completed_ldKey_of_some hk))
  obtain ⟨t, hnext, hframe, hregs, hpc, hx⟩ := exists_next_of_exec_eq_setV_advance hexec
  refine ⟨t, hnext, hframe, hregs, hpc, ?_⟩
  rw [hx]
  exact toNat_ofNat_byte_of_lt (k.isLt.trans (by decide))

/-- Settles O59: with no new key the state is answered as it is. -/
theorem keyWaitStaysWithoutNewKey : Obligations.KeyWaitStaysWithoutNewKey := by
  intro x s hold
  have hk : s.newKey = none := State.newKey_eq_none.mpr <| BitVec.eq_of_getLsbD_eq fun j hj =>
    ((s.getLsbD_newKeys_eq_false hj).mpr (hold ⟨j, hj⟩)).trans BitVec.getLsbD_zero.symm
  exact (exec_of_completes rfl).trans (congrArg _ (State.completed_ldKey_of_none hk))

end Sys2Proof.Machine
end

section
/-! The instructions that move blocks between registers and memory (spec 42_index_memory.md R133 to
R135), and that a store is seen by the next fetch (20_memory.md R64). -/

namespace Sys2Proof.Machine

variable {s t : State}

/-! ### Blocks stored and loaded -/

theorem fatalCause_block_of_le {x : Reg} (h : s.i.toNat + x.val ≤ 0xFFF) :
    fatalCause (.storeRegs x) s = none ∧ fatalCause (.loadRegs x) s = none :=
  ⟨if_neg (Nat.not_lt.mpr h), if_neg (Nat.not_lt.mpr h)⟩

/-- A byte of a block that no offset names is outside it. -/
theorem SameBytesOutside.readByte_eq {base n a : Nat} (h : SameBytesOutside base n s t)
    (ha : ∀ k, k < n → base + k ≠ a) : t.mem.readByte a = s.mem.readByte a := by
  refine h a ?_
  by_contra hin
  exact ha (a - base) (by omega) (by omega)

/-- The two bytes at a `PC` in reach, as the memory has them. -/
theorem State.fetch_of_pc {a : Nat} (hpc : t.pc.toNat = a) (ha : a ≤ 0xFFE) :
    t.fetch = some (wordOfBytes (t.mem.readByte a) (t.mem.readByte (a + 1))) :=
  State.fetch_eq_some.mpr ⟨by subst hpc; exact Nat.lt_succ_of_le (Nat.succ_le_succ ha), by rw [hpc]⟩

/-- The three digits by their powers of ten. -/
theorem decimalDigit_eq {n d : Nat} {k : Nat} (hn : n < 256) (hk : k < 3)
    (h0 : k = 0 → d = n / 100) (h1 : k = 1 → d = n / 10 % 10) (h2 : k = 2 → d = n % 10) :
    d = n / 10 ^ (2 - k) % 10 := by
  interval_cases k
  · rw [h0 rfl]; omega
  · exact h1 rfl
  · rw [h2 rfl]; simp

/-! ### The statements -/

/-- Settles O49: the three digits are a block of three bytes. -/
theorem decimalDigitsAreStored : Obligations.DecimalDigitsAreStored := by
  intro x s hm
  refine ⟨fun hi => ?_, fun hi => exec_of_raises (if_pos (by omega))⟩
  have hb := (s.v[x]).isLt
  have hdigit : ∀ k, k < 3 → (s.completed (.ldB x)).mem.readByte (s.effAddr k) =
      (decimalDigits s.v[x]).getD k 0 := fun k hk => readByte_writeBytes_inside hm _ hk
  refine ⟨_, exec_of_completes (if_neg (by omega)), rfl, ?_, ?_, ?_,
    fun a ha => readByte_writeBytes_outside hm ha⟩
  · rw [hdigit 0 (by decide)]; exact toNat_ofNat_byte_of_lt (by omega)
  · rw [hdigit 1 (by decide)]; exact toNat_ofNat_byte_of_lt (by omega)
  · rw [hdigit 2 (by decide)]; exact toNat_ofNat_byte_of_lt (by omega)

/-- Settles O50: `V[0]` to `V[X]` are a block of `X + 1` bytes. -/
theorem registersAreStoredAscending : Obligations.RegistersAreStoredAscending := by
  intro x s hm
  have hlen := State.length_regsUpTo s x
  refine ⟨fun hi => ⟨_, exec_of_completes (fatalCause_block_of_le hi).1, rfl, fun k hk => ?_,
    fun a ha => readByte_writeBytes_outside hm (by rwa [hlen])⟩, fun hi => exec_of_raises (if_pos hi)⟩
  have hk : k.val ≤ x.val := hk
  exact (readByte_writeBytes_inside hm _ (by omega)).trans (State.getD_regsUpTo s x k hk)

/-- Settles O51: the bytes read are put into the registers from `V[0]` on. -/
theorem registersAreLoadedAscending : Obligations.RegistersAreLoadedAscending := by
  intro x s
  refine ⟨fun hi => ⟨_, exec_of_completes (fatalCause_block_of_le hi).2, rfl, rfl, fun k => ?_⟩,
    fun hi => exec_of_raises (if_pos hi)⟩
  simp only [State.completed, getReg_putRegs, List.length_map, List.length_range]
  by_cases hk : k ≤ x
  · have hk' : k.val < x.val + 1 := Nat.lt_succ_of_le hk
    rw [if_pos hk, if_pos (by omega), List.getD_eq_getElem _ _ (by simpa using hk')]
    simp [State.effAddr]
  · have hk' : ¬k.val < x.val + 1 := fun h => hk (Nat.le_of_lt_succ h)
    rw [if_neg hk, if_neg (by omega)]

/-- Settles O52: the load reads the block the store wrote. -/
theorem storeThenLoadRestoresRegisters : Obligations.StoreThenLoadRestoresRegisters := by
  intro x s t u hm hi hstore hmem hiu
  obtain ⟨t', hstore', -, hstored, -⟩ := (registersAreStoredAscending x s hm).1 hi
  obtain rfl : t' = t := by rw [hstore] at hstore'; cases hstore'; rfl
  obtain ⟨w, hload, -, -, hloaded⟩ := (registersAreLoadedAscending x u).1 (by rwa [hiu])
  refine ⟨w, hload, fun k hk => ?_⟩
  rw [hloaded k, if_pos hk, hmem, State.effAddr, hiu]
  exact hstored k hk

/-- Settles O53: the fetch reads the memory the store left, byte by byte inside or outside its
block. -/
theorem storeIsSeenByNextFetch : Obligations.StoreIsSeenByNextFetch := by
  intro x s hm hpc
  have hnpc : (s.pc + 2).toNat = s.pc.toNat + 2 := State.toNat_npc (s := s) (by omega)
  refine ⟨fun hi => ?_, fun hi => ?_⟩
  · obtain ⟨t, hstore, ht, hstored, houtside⟩ := (registersAreStoredAscending x s hm).1 hi
    have hcover : ∀ {a}, (∀ k : Reg, k ≤ x → s.effAddr k.val ≠ a) →
        t.mem.readByte a = s.mem.readByte a := fun ha => houtside.readByte_eq fun k hk =>
      ha ⟨k, by omega⟩ (Nat.le_of_lt_succ hk)
    refine ⟨t, _, _, hstore, State.fetch_of_pc (by rw [ht]; exact hnpc) (by omega),
      fun k hk ha => ?_, fun k hk ha => ?_, hcover, hcover⟩
    · rw [← ha, hstored k hk]
    · rw [← hstored k hk, ha]
  · obtain ⟨t, hstore, ht, h0, h1, h2, houtside⟩ := (decimalDigitsAreStored x s hm).1 hi
    have hdigit : ∀ k, k < 3 → (t.mem.readByte (s.effAddr k)).toNat =
        (s.v[x]).toNat / 10 ^ (2 - k) % 10 := fun k hk =>
      decimalDigit_eq (s.v[x]).isLt hk (fun h => h ▸ h0) (fun h => h ▸ h1) (fun h => h ▸ h2)
    refine ⟨t, _, _, hstore, State.fetch_of_pc (by rw [ht]; exact hnpc) (by omega),
      fun k hk ha => ?_, fun k hk ha => ?_, fun ha => houtside.readByte_eq ha,
      fun ha => houtside.readByte_eq ha⟩
    · rw [← ha, hdigit k hk]
    · rw [← hdigit k hk, ha]

end Sys2Proof.Machine
end

section
/-! Drawing a sprite (spec 43_display.md R141 to R144), once and twice. -/

namespace Sys2Proof.Machine

variable {s : State} {x y : Reg} {n : BitVec 4}

/-! ### One drawing -/

/-- The cell lies under a 1 bit of the sprite that DXYN would draw in this state (R141). -/
def State.under (s : State) (x y : Reg) (n : BitVec 4) (cx cy : Nat) : Bool :=
  underSprite (s.spriteRows n.toNat) (s.v[x]).toNat (s.v[y]).toNat cx cy

theorem State.length_spriteRows_le (s : State) (n : BitVec 4) :
    (s.spriteRows n.toNat).length ≤ 32 := by
  have := n.isLt
  simp only [State.spriteRows, List.length_map, List.length_range]
  omega

theorem State.cell_drawing (s : State) (x y : Reg) (n : BitVec 4) {cx cy : Nat} (hx : cx < 64)
    (hy : cy < 32) :
    (s.drawing x y n).disp.cell cx cy = (s.disp.cell cx cy ^^ s.under x y n cx cy) :=
  Canvas.cell_plotRows ⟨s.disp, false⟩ _ _ _ (s.length_spriteRows_le n) hx hy

theorem State.coll_drawing (s : State) (x y : Reg) (n : BitVec 4) :
    (s.drawing x y n).coll = true ↔ ∃ cx cy, cx < 64 ∧ cy < 32 ∧
      s.disp.cell cx cy = true ∧ s.under x y n cx cy = true :=
  (Canvas.coll_plotRows ⟨s.disp, false⟩ _ _ _ (s.length_spriteRows_le n)).trans
    (by simp [State.under])

/-- No 1 bit of the sprite over a cell that is on is no collision. -/
theorem State.coll_drawing_eq_false
    (h : ∀ cx cy, cx < 64 → cy < 32 → s.disp.cell cx cy = true → s.under x y n cx cy = false) :
    (s.drawing x y n).coll = false := by
  rw [Bool.eq_false_iff]
  intro hcoll
  obtain ⟨cx, cy, hx, hy, hon, hunder⟩ := (s.coll_drawing x y n).mp hcoll
  rw [h cx cy hx hy hon] at hunder; cases hunder

theorem fatalCause_drw_eq_none (h : n = 0 ∨ s.i.toNat + n.toNat ≤ 0x1000) :
    fatalCause (.drw x y n) s = none := by
  refine if_neg ?_
  rcases h with rfl | h
  · simp
  · omega

theorem State.completed_drw_cell (s : State) (x y : Reg) (n : BitVec 4) {cx cy : Nat}
    (hx : cx < 64) (hy : cy < 32) : (s.completed (.drw x y n)).disp.cell cx cy =
      (s.disp.cell cx cy ^^ s.under x y n cx cy) :=
  s.cell_drawing x y n hx hy

theorem State.completed_drw_VF (s : State) (x y : Reg) (n : BitVec 4) :
    (s.completed (.drw x y n)).v[VF] = flagByte (s.drawing x y n).coll :=
  s.setV_advance_reg_self VF _

theorem State.completed_drw_sameRegs (s : State) (x y : Reg) (n : BitVec 4) :
    SameRegsBut [VF] s (s.completed (.drw x y n)) :=
  s.sameRegsBut_setV_advance VF _

/-! ### A second drawing at the same place -/

/-- Where neither coordinate is in VF, the first drawing does not move the second. -/
theorem State.under_completed_drw (hx : x ≠ VF) (hy : y ≠ VF) :
    (s.completed (.drw x y n)).under x y n = s.under x y n := by
  have hregs := s.completed_drw_sameRegs x y n
  funext cx cy
  rw [State.under, hregs x (by simpa using hx), hregs y (by simpa using hy)]
  rfl

theorem State.disp_drawing_twice (hx : x ≠ VF) (hy : y ≠ VF) :
    ((s.completed (.drw x y n)).drawing x y n).disp = s.disp := by
  refine Display.ext_cell fun cx cy hcx hcy => ?_
  rw [State.cell_drawing _ x y n hcx hcy, State.under_completed_drw hx hy]
  rw [s.completed_drw_cell x y n hcx hcy, Bool.xor_assoc, Bool.xor_self, Bool.xor_false]

/-- The second drawing collides where the first turned a cell on: under the sprite, and off before
(R144; log entry 19). -/
theorem State.coll_drawing_twice (hx : x ≠ VF) (hy : y ≠ VF) :
    ((s.completed (.drw x y n)).drawing x y n).coll = true ↔ ∃ cx cy, cx < 64 ∧ cy < 32 ∧
      s.disp.cell cx cy = false ∧ s.under x y n cx cy = true := by
  rw [State.coll_drawing, State.under_completed_drw hx hy]
  refine exists_congr fun cx => exists_congr fun cy => and_congr_right fun hcx =>
    and_congr_right fun hcy => and_congr_left fun hunder => ?_
  rw [s.completed_drw_cell x y n hcx hcy, hunder]
  cases s.disp.cell cx cy <;> decide

/-! ### Sprites with a 1 bit -/

theorem ne_zero_iff_exists_spriteBit (b : Byte) : b ≠ 0 ↔ ∃ c, c < 8 ∧ spriteBit b c = true := by
  constructor
  · intro hne
    by_contra hnone
    refine hne (BitVec.eq_of_getLsbD_eq fun j hj => ?_)
    have hbit : spriteBit b (7 - j) = false :=
      Bool.eq_false_iff.mpr fun hb => hnone ⟨7 - j, by omega, hb⟩
    rw [spriteBit, show 7 - (7 - j) = j by omega] at hbit
    exact hbit.trans BitVec.getLsbD_zero.symm
  · rintro ⟨c, -, hb⟩ rfl
    simp [spriteBit] at hb

/-- Some cell lies under a sprite exactly when one of its rows is not 0. -/
theorem exists_underSprite_iff (bs : List Byte) (x y : Nat) :
    (∃ cx cy, cx < 64 ∧ cy < 32 ∧ underSprite bs x y cx cy = true) ↔ ∃ b ∈ bs, b ≠ 0 := by
  constructor
  · rintro ⟨cx, cy, hx, hy, hu⟩
    obtain ⟨a, ha, -⟩ := (underSprite_iff hx hy).mp hu
    obtain ⟨row, c, hrow, hc, hb, -⟩ := mem_spritePixels.mp ha
    rw [List.getD_eq_getElem _ _ hrow] at hb
    exact ⟨_, List.getElem_mem hrow, (ne_zero_iff_exists_spriteBit _).mpr ⟨c, hc, hb⟩⟩
  · rintro ⟨b, hb, hne⟩
    obtain ⟨row, hrow, rfl⟩ := List.getElem_of_mem hb
    obtain ⟨c, hc, hbit⟩ := (ne_zero_iff_exists_spriteBit _).mp hne
    have hx : (x + c) % 64 < 64 := Nat.mod_lt _ (by decide)
    have hy : (y + row) % 32 < 32 := Nat.mod_lt _ (by decide)
    refine ⟨_, _, hx, hy, (underSprite_iff hx hy).mpr ⟨(x + c, y + row), ?_, by simp [SameCell]⟩⟩
    exact mem_spritePixels.mpr ⟨row, c, hrow, hc, by rwa [List.getD_eq_getElem _ _ hrow], rfl⟩

theorem flagByte_eq_ite {b : Bool} {p : Prop} [Decidable p] (h : b = true ↔ p) :
    flagByte b = if p then 1 else 0 := by
  rw [← flagByte_decide, Bool.eq_iff_iff.mpr (h.trans decide_eq_true_iff.symm)]

/-! ### The statements -/

/-- Settles O55: the drawing turns over the cells under the sprite, and its collision flag goes to
VF. -/
theorem drawExclusiveOrsSpriteAndReportsCollision :
    Obligations.DrawExclusiveOrsSpriteAndReportsCollision := by
  intro x y n s hrange
  refine ⟨_, exec_of_completes (fatalCause_drw_eq_none hrange), rfl,
    s.completed_drw_sameRegs x y n, fun cx cy hx hy => s.completed_drw_cell x y n hx hy,
    fun hon => ?_, fun hoff => ?_⟩
  · rw [State.completed_drw_VF, (s.coll_drawing x y n).mpr hon]; rfl
  · rw [State.completed_drw_VF, State.coll_drawing_eq_false hoff]; rfl

/-- Settles O56: a cell turned over twice is as before, and the second drawing collides where the
first turned a cell on. -/
theorem drawingTwiceRestoresDisplay : Obligations.DrawingTwiceRestoresDisplay := by
  intro x y n s t u hx hy hrange ht hu
  rw [exec_of_completes (fatalCause_drw_eq_none hrange)] at ht
  cases ht
  rw [exec_of_completes (fatalCause_drw_eq_none (s := s.completed _) hrange)] at hu
  cases hu
  have hcoll := State.coll_drawing_twice (s := s) (n := n) hx hy
  rw [State.completed_drw_VF, State.completed_drw_VF]
  refine ⟨State.disp_drawing_twice hx hy, fun hblank => ⟨?_, ?_⟩, fun hoff => ?_, fun hon => ?_⟩
  · rw [State.coll_drawing_eq_false (by simp [hblank])]; rfl
  · refine flagByte_eq_ite (hcoll.trans (Iff.trans ?_ (exists_underSprite_iff _ s.v[x].toNat
      s.v[y].toNat)))
    simp only [hblank, cell_blankDisplay, true_and, State.under]
  · rw [hcoll.mpr hoff]; rfl
  · have hno : ¬((s.completed (.drw x y n)).drawing x y n).coll = true := fun hc => by
      obtain ⟨cx, cy, hcx, hcy, hoff, hunder⟩ := hcoll.mp hc
      exact Bool.false_ne_true ((hon cx cy hcx hcy hoff).symm.trans hunder)
    rw [Bool.eq_false_iff.mpr hno]; rfl

end Sys2Proof.Machine
end
